-- ==== Sys2Proof/Word.lean ====
section
/-! DEFINITION. The plain data types the whole model shares: bit sequences, the version tag, the eight
packet types, the two length modes, the packet tree and a resource ceiling that may be absent. Types only;
every function over them stands in a file a repair may mend. -/

namespace Sys2Proof

/-- A bit sequence in stream order: the head is bit 0, the first received and the most significant bit of
any field that starts there (R8, R50). -/
abbrev Bits := List Bool

/-- The 3-bit per-packet version tag, 0..7 by type (R21, R71). Nothing but `versionSum` ever adds it up. -/
abbrev Version := BitVec 3

/-- PacketType, the closed enumeration of eight values (R22). The constructors stand in code order 0..7. -/
inductive PacketType where
  | sum | product | minimum | maximum | literal | greaterThan | lessThan | equalTo
deriving DecidableEq, Repr

/-- LengthMode (R23): `totalBits` is the bit 0, `immediateCount` the bit 1. -/
inductive LengthMode where
  | totalBits | immediateCount
deriving DecidableEq, Repr

mutual

/-- Packet, the closed two-variant recursive sum of R21. An operator keeps its `mode` (R21, R23,
`90_conflicts.md` C5). A hand-built tree may be ill-formed (R25): an operator of type LITERAL, or with a
wrong number of children, is a value of this type. -/
inductive Packet where
  | lit (version : Version) (value : Nat)
  | op (version : Version) (type : PacketType) (mode : LengthMode) (children : Packets)
deriving DecidableEq, Repr

/-- An ordered list of packets, the children of one operator in wire order (R21). -/
inductive Packets where
  | nil
  | cons (first : Packet) (rest : Packets)
deriving DecidableEq, Repr

end

/-- A resource ceiling of R6: a number, or INF, "no ceiling". -/
inductive Ceiling where
  | inf
  | limit (n : Nat)
deriving DecidableEq, Repr

/-- ENC_POLICY of R6: whether ENCODE keeps each operator's own mode or always uses mode 1. -/
inductive EncPolicy where
  | retain | forceCount
deriving DecidableEq, Repr

end Sys2Proof
end

