-- ==== Sys2Proof/Syntax.lean ====
section
/-! DEFINITION. The instructions: the fifteen packet encodings of spec/opcode_table.json, one constructor a
row (R81). An instruction is the fixed-length prefix the table gives the row; what follows the prefix in the
stream (further groups, children) is read by its meaning or as instructions of its own. -/

namespace Sys2Proof

/-- One constructor per row of the opcode table, in the table's order. Fields and their ranges (R72 to R74):
`version` the 3-bit tag; `more` and `chunk` the first group's continue flag and its 4-bit chunk;
`total` the 15-bit totalChildBits of the `.T` forms; `count` the 11-bit childCount of the `.C` forms. -/
inductive Instr where
  | literal (version : Version) (more : Bool) (chunk : Nat)
  | sumT (version : Version) (total : Nat)
  | sumC (version : Version) (count : Nat)
  | productT (version : Version) (total : Nat)
  | productC (version : Version) (count : Nat)
  | minimumT (version : Version) (total : Nat)
  | minimumC (version : Version) (count : Nat)
  | maximumT (version : Version) (total : Nat)
  | maximumC (version : Version) (count : Nat)
  | greaterThanT (version : Version) (total : Nat)
  | greaterThanC (version : Version) (count : Nat)
  | lessThanT (version : Version) (total : Nat)
  | lessThanC (version : Version) (count : Nat)
  | equalToT (version : Version) (total : Nat)
  | equalToC (version : Version) (count : Nat)
deriving DecidableEq, Repr

end Sys2Proof
end

