-- ==== Sys2Proof/WellFormed.lean ====
section
/-! DEFINITION. When an instruction is one that the encoding can hold: each number fits its field. -/

namespace Sys2Proof

/-- The widths of R5: a chunk is 4 bits, totalChildBits 15 bits, childCount 11 bits. The version is 3 bits by
its type. Zero totals and counts are well formed: they are legal encodings whose content is illegal (R83). -/
def Instr.wellFormed : Instr → Bool
  | .literal _ _ chunk => decide (chunk < 2 ^ 4)
  | .sumT _ total => decide (total < 2 ^ 15)
  | .sumC _ count => decide (count < 2 ^ 11)
  | .productT _ total => decide (total < 2 ^ 15)
  | .productC _ count => decide (count < 2 ^ 11)
  | .minimumT _ total => decide (total < 2 ^ 15)
  | .minimumC _ count => decide (count < 2 ^ 11)
  | .maximumT _ total => decide (total < 2 ^ 15)
  | .maximumC _ count => decide (count < 2 ^ 11)
  | .greaterThanT _ total => decide (total < 2 ^ 15)
  | .greaterThanC _ count => decide (count < 2 ^ 11)
  | .lessThanT _ total => decide (total < 2 ^ 15)
  | .lessThanC _ count => decide (count < 2 ^ 11)
  | .equalToT _ total => decide (total < 2 ^ 15)
  | .equalToC _ count => decide (count < 2 ^ 11)

end Sys2Proof
end

