-- ==== Sys2Proof/Decode.lean ====
section
/-! DEFINITION. Bits and numbers (R8, R9), the decoder of one instruction's prefix, total on any bit
sequence, its encoder, and the reading of the opcode table's numbers. -/

namespace Sys2Proof

/-- The unsigned value of a bit sequence read most significant bit first (R9). -/
def val (b : Bits) : Nat :=
  b.foldl (fun acc bit => 2 * acc + bit.toNat) 0

/-- `bits(v, n)` of R9: the n-bit sequence of value v; element k is bit n-1-k of v. -/
def bitsOf (v : Nat) : Nat → Bits
  | 0 => []
  | n + 1 => v.testBit n :: bitsOf v n

/-- The PacketType code of R22. -/
def PacketType.code : PacketType → Nat
  | .sum => 0
  | .product => 1
  | .minimum => 2
  | .maximum => 3
  | .literal => 4
  | .greaterThan => 5
  | .lessThan => 6
  | .equalTo => 7

/-- The type of a 3-bit code; all eight are assigned (R22, R82). -/
def PacketType.ofCode (code : Fin 8) : PacketType :=
  match code with
  | 0 => .sum
  | 1 => .product
  | 2 => .minimum
  | 3 => .maximum
  | 4 => .literal
  | 5 => .greaterThan
  | 6 => .lessThan
  | 7 => .equalTo

/-- The lengthMode bit of R23. -/
def LengthMode.bit : LengthMode → Bool
  | .totalBits => false
  | .immediateCount => true

/-- Why a bit sequence holds no instruction. There is no other reason: no header is reserved (R82). -/
inductive DecodeError where
  /-- The field that starts `offset` bits into the packet does not fit in the bits that are left (R83, R101). -/
  | insufficientBits (offset : Nat)
deriving DecidableEq, Repr

/-- One field of n bits from the front, and what follows it (R76); none when fewer than n bits are left. -/
def field (n : Nat) (b : Bits) : Option (Nat × Bits) :=
  if b.length < n then none else some (val (b.take n), b.drop n)

/-- The rest of a LITERAL's prefix after its 6-bit header: the first group's flag, then its chunk (R72). -/
def decodeFirstGroup (version : Version) (b : Bits) : Except DecodeError (Instr × Bits) :=
  match field 1 b with
  | none => .error (.insufficientBits 6)
  | some (flag, b) =>
    match field 4 b with
    | none => .error (.insufficientBits 7)
    | some (chunk, b) => .ok (.literal version (flag == 1) chunk, b)

/-- The rest of an operator's prefix after its 6-bit header: lengthMode, then 15 bits of total length or 11
bits of child count (R73, R74). -/
def decodeFraming (total count : Nat → Instr) (b : Bits) : Except DecodeError (Instr × Bits) :=
  match field 1 b with
  | none => .error (.insufficientBits 6)
  | some (mode, b) =>
    if mode = 0 then
      match field 15 b with
      | none => .error (.insufficientBits 7)
      | some (t, b) => .ok (total t, b)
    else
      match field 11 b with
      | none => .error (.insufficientBits 7)
      | some (n, b) => .ok (count n, b)

/-- The decoder (R71, R80, R122): 3 bits of version, 3 bits of type, then by type the literal's first group
or the operator's framing fields. Answers the instruction and the bits after its prefix. -/
def decode (b : Bits) : Except DecodeError (Instr × Bits) :=
  match field 3 b with
  | none => .error (.insufficientBits 0)
  | some (v, b) =>
    match field 3 b with
    | none => .error (.insufficientBits 3)
    | some (t, b) =>
      match PacketType.ofCode (Fin.ofNat 8 t) with
      | .literal => decodeFirstGroup (BitVec.ofNat 3 v) b
      | .sum => decodeFraming (.sumT (BitVec.ofNat 3 v)) (.sumC (BitVec.ofNat 3 v)) b
      | .product => decodeFraming (.productT (BitVec.ofNat 3 v)) (.productC (BitVec.ofNat 3 v)) b
      | .minimum => decodeFraming (.minimumT (BitVec.ofNat 3 v)) (.minimumC (BitVec.ofNat 3 v)) b
      | .maximum => decodeFraming (.maximumT (BitVec.ofNat 3 v)) (.maximumC (BitVec.ofNat 3 v)) b
      | .greaterThan => decodeFraming (.greaterThanT (BitVec.ofNat 3 v)) (.greaterThanC (BitVec.ofNat 3 v)) b
      | .lessThan => decodeFraming (.lessThanT (BitVec.ofNat 3 v)) (.lessThanC (BitVec.ofNat 3 v)) b
      | .equalTo => decodeFraming (.equalToT (BitVec.ofNat 3 v)) (.equalToC (BitVec.ofNat 3 v)) b

/-- Header H (R71): version, then type. -/
def headerBits (version : Version) (type : PacketType) : Bits :=
  bitsOf version.toNat 3 ++ bitsOf type.code 3

/-- A group (R72): the continue flag, then the 4-bit chunk. -/
def groupBits (more : Bool) (chunk : Nat) : Bits :=
  more :: bitsOf chunk 4

/-- Header, mode bit 0 and the 15-bit total (R73). -/
def totalHeader (version : Version) (type : PacketType) (total : Nat) : Bits :=
  headerBits version type ++ LengthMode.totalBits.bit :: bitsOf total 15

/-- Header, mode bit 1 and the 11-bit count (R74). -/
def countHeader (version : Version) (type : PacketType) (count : Nat) : Bits :=
  headerBits version type ++ LengthMode.immediateCount.bit :: bitsOf count 11

/-- The encoder of one instruction's prefix, from the packet map of R81. -/
def encode : Instr → Bits
  | .literal v more chunk => headerBits v .literal ++ groupBits more chunk
  | .sumT v total => totalHeader v .sum total
  | .sumC v count => countHeader v .sum count
  | .productT v total => totalHeader v .product total
  | .productC v count => countHeader v .product count
  | .minimumT v total => totalHeader v .minimum total
  | .minimumC v count => countHeader v .minimum count
  | .maximumT v total => totalHeader v .maximum total
  | .maximumC v count => countHeader v .maximum count
  | .greaterThanT v total => totalHeader v .greaterThan total
  | .greaterThanC v count => countHeader v .greaterThan count
  | .lessThanT v total => totalHeader v .lessThan total
  | .lessThanC v count => countHeader v .lessThan count
  | .equalToT v total => totalHeader v .equalTo total
  | .equalToC v count => countHeader v .equalTo count

/-- How many bits an instruction's prefix takes in the stream: 11 for a LITERAL, 22 for a `.T`, 18 for a `.C`
(R72, R73, R74). -/
def Instr.prefixBits : Instr → Nat
  | .literal .. => 11
  | .sumT .. | .productT .. | .minimumT .. | .maximumT .. | .greaterThanT .. | .lessThanT .. | .equalToT .. => 22
  | .sumC .. | .productC .. | .minimumC .. | .maximumC .. | .greaterThanC .. | .lessThanC .. | .equalToC .. => 18

/-- The stream bits an opcode-table number w of nbits bits stands for: DEDUCED (log entry 4). The table reads the first
seven stream bits as a 7-bit number, the first stream bit most significant (R81), so stream bit k < 7 is bit
6-k; a bit 7 or above counts on in stream order. Padded with zeros to 24 bits, the longest prefix of 22 bits
rounded up to whole bytes. -/
def tableBits (nbits w : Nat) : Bits :=
  (List.range 24).map fun k =>
    if k < 7 then decide (6 - k < nbits) && w.testBit (6 - k) else decide (k < nbits) && w.testBit k

/-- The instruction the decoder reads from an opcode-table number. -/
def decodeTableWord (nbits w : Nat) : Option Instr :=
  match decode (tableBits nbits w) with
  | .ok (i, _) => some i
  | .error _ => none

end Sys2Proof
end

