-- ==== Sys2Proof/Config.lean ====
section
/-! DEFINITION. What one instance of the core fixes when it is built (R6, R34), the default values of R6,
and the one uninterpreted function the spec leaves open. -/

namespace Sys2Proof

/-- The six configuration parameters of R6. -/
structure Config where
  /-- MAX_BITS: capacity in bits of BUF and of OUT. -/
  maxBits : Nat
  /-- MAX_DEPTH: the deepest legal packet; the outer packet is at depth 1. -/
  maxDepth : Ceiling
  /-- MAX_PACKETS: the most packets in one decode or encode. -/
  maxPackets : Ceiling
  /-- VALUE_BITS: a Literal's value is below 2^VALUE_BITS. -/
  valueBits : Ceiling
  /-- POP_MAX: the largest legal operand of POP. -/
  popMax : Nat
  /-- ENC_POLICY. -/
  encPolicy : EncPolicy
deriving DecidableEq, Repr

/-- The defaults of R6. -/
def Config.standard : Config :=
  { maxBits := 65536, maxDepth := .limit 256, maxPackets := .inf, valueBits := .inf, popMax := 64,
    encPolicy := .retain }

/-- A ceiling is INF or at least `least` (the domain column of R6). -/
def Ceiling.atLeast (least : Nat) : Ceiling → Bool
  | .inf => true
  | .limit n => decide (least ≤ n)

/-- The domains of R6. -/
def Config.wf (c : Config) : Bool :=
  decide (0 < c.maxBits) && decide (c.maxBits % 8 = 0) && c.maxDepth.atLeast 1 && c.maxPackets.atLeast 1 &&
    c.valueBits.atLeast 4 && decide (15 ≤ c.popMax)

/-- FREE VALUE (log entry 8). The companion `render` of R185: deterministic and otherwise unspecified, so a function with
no body; it is a function, so equal packets render equally, and nothing else can be proved of it. -/
opaque Config.render : Packet → String

end Sys2Proof
end

