-- ==== Sys2Proof/Machine/State.lean ====
section
/-! DEFINITION. The state of the core: the named registers of R31, the transient state of R37, the
configuration of R6, and what the host is about to do. Plain data throughout. -/

namespace Sys2Proof.Machine

/-- The codes held in ERR, in code order 0..8 (R200). The core never writes `arityError` (R203). -/
inductive Err where
  | ok | malformedInput | insufficientBits | framingMismatch | invalidStructure | arityError | limitExceeded
  | encodeOverflow | illegalOperand
deriving DecidableEq, Repr

/-- The sub-causes held in ERRSUB, in code order 0..4 (R201). -/
inductive ErrSub where
  | none | depth | packets | buffer | value
deriving DecidableEq, Repr

/-- How the children of an operator in progress are framed (R37 c): mode 0 with its totalChildBits and the POS
at which its children section starts, or mode 1 with its childCount. -/
inductive Framing where
  | total (bits start : Nat)
  | count (n : Nat)
deriving DecidableEq, Repr

/-- One frame per operator whose children are still being decoded (R37 c), with the children decoded so far
in wire order. -/
structure Frame where
  version : Version
  type : PacketType
  framing : Framing
  children : Packets
deriving DecidableEq, Repr

/-- The command in progress: none, or a decode that has not yet ended (R37, R239). DESIGN CHOICE (log entry 1):
the other four commands are one step each. -/
inductive Running where
  | idle | decode | decodeOuter
deriving DecidableEq, Repr

/-- The six host commands (R89). -/
inductive Command where
  | loadHex (text : List Char)
  | pop (n : Nat)
  | remaining
  | decode
  | decodeOuter (text : List Char)
  | encode (packet : Packet)
deriving DecidableEq, Repr

/-- What the host can do to the core (R240): issue a command, or reset it. Reading a register changes nothing
and is no move. -/
inductive HostMove where
  | issue (c : Command)
  | reset
deriving DecidableEq, Repr

/-- No fault exists: every command on every state and operand has an outcome that goes on (R206, and part 1 of
`93_implementation_defined.md`), and nothing raises this type; that is safe. -/
inductive Fault
deriving DecidableEq, Repr

/-- Why a step gives an instruction no meaning. -/
inductive Refusal where
  /-- Raised only by an arm of `exec` whose instruction has no meaning yet, under its table mnemonic; safe,
  since the run stops. No arm raises it. -/
  | notModelled (mnemonic : String)
deriving DecidableEq, Repr

/-- The whole state. LEN and OUTLEN are the lengths of `buf` and `out` (R33 asks for exactly that). -/
structure State where
  /-- BUF[0..LEN): the transmission being decoded (R31, R33). -/
  buf : Bits
  /-- POS: the cursor, the core's program counter (R27). -/
  pos : Nat
  /-- RET: the value of the last successful POP or REMAINING (R31). -/
  ret : Nat
  /-- TREE: none, or the packet of the last successful decode (R31). -/
  tree : Option Packet
  /-- OUT[0..OUTLEN): the last encoding (R31, R33). -/
  out : Bits
  /-- ERR (R31, R200). -/
  err : Err
  /-- ERRSUB (R31, R201). -/
  errSub : ErrSub
  /-- ERRPOS (R31, R207). -/
  errPos : Nat
  /-- WARN: the trailing-bit warning (R30). -/
  warn : Bool
  /-- NPKT: the packets begun so far in the decode in progress (R37 a). -/
  npkt : Nat
  /-- The frame stack, innermost first; its height is the current depth minus 1 (R37 b, c). -/
  frames : List Frame
  /-- The accumulated value of a Literal in progress (R37 d). -/
  acc : Nat
  /-- The command in progress (R37, R239). -/
  running : Running
  /-- The configuration of this instance; no step changes it (R34). -/
  cfg : Config
  /-- DESIGN CHOICE (log entry 2): the model's own field, what the host does next, oldest first (R58). -/
  pending : List HostMove
deriving DecidableEq, Repr

/-- The state after the reset of an instance with configuration `cfg`, the host having `pending` still to do
(R41, R230). -/
def State.afterReset (cfg : Config) (pending : List HostMove) : State :=
  { buf := [], pos := 0, ret := 0, tree := none, out := [], err := .ok, errSub := .none, errPos := 0,
    warn := false, npkt := 0, frames := [], acc := 0, running := .idle, cfg := cfg, pending := pending }

/-- The machine right after reset (R41). DESIGN CHOICE (log entries 2 and 3): no host move is pending and the
configuration is the default of R6. -/
def State.reset : State :=
  State.afterReset Config.standard []

end Sys2Proof.Machine
end

