-- ==== Sys2Proof/Machine/Ops.lean ====
section
/-! DEFINITION. The named operations over the cursor and the registers: reading bits, the internal `pop`,
ending a command with success or with an error (the one shared error entry of R206), and entering a packet. -/

namespace Sys2Proof.Machine

/-- The numeric code of R200. -/
def Err.code : Err → Nat
  | .ok => 0
  | .malformedInput => 1
  | .insufficientBits => 2
  | .framingMismatch => 3
  | .invalidStructure => 4
  | .arityError => 5
  | .limitExceeded => 6
  | .encodeOverflow => 7
  | .illegalOperand => 8

/-- The numeric code of R201. -/
def ErrSub.code : ErrSub → Nat
  | .none => 0
  | .depth => 1
  | .packets => 2
  | .buffer => 3
  | .value => 4

/-- `n > ceiling`; always false for INF (R6). -/
def passes (n : Nat) : Ceiling → Bool
  | .inf => false
  | .limit m => decide (m < n)

/-- `value >= 2^VALUE_BITS`; always false for INF (R124). -/
def tooWide (value : Nat) : Ceiling → Bool
  | .inf => false
  | .limit bits => decide (2 ^ bits ≤ value)

/-- One bit of a buffer: the address must be below its length (R33, R53). -/
def bitAt (b : Bits) (a : Nat) : Option Bool :=
  b[a]?

/-- The form a buffer keeps (R32): at most MAX_BITS bits, a multiple of `unit` of them. A bit list of exactly
LEN bits has no second form, so this is all its canonical form says. -/
def Memory.wf (maxBits unit : Nat) (b : Bits) : Bool :=
  decide (b.length ≤ maxBits) && decide (b.length % unit = 0)

/-- LEN (R31). -/
def State.len (s : State) : Nat :=
  s.buf.length

/-- OUTLEN (R31). -/
def State.outLen (s : State) : Nat :=
  s.out.length

/-- The unconsumed bit count LEN - POS (R103). -/
def State.remaining (s : State) : Nat :=
  s.len - s.pos

/-- The current depth d: the packet about to be read is one below the innermost frame (R37 b, R121). -/
def State.depth (s : State) : Nat :=
  s.frames.length + 1

/-- MemRead(addr, n) of R10: the value of n bits of BUF from a bit address. -/
def memRead (buf : Bits) (addr n : Nat) : Nat :=
  val ((buf.drop addr).take n)

/-- The only move of POS within a buffer (R28). -/
def State.advance (n : Nat) (s : State) : State :=
  { s with pos := s.pos + n }

/-- The internal `pop(n)` of R101: none when fewer than n bits remain, and then nothing is consumed. -/
def State.popBits (n : Nat) (s : State) : Option (Nat × State) :=
  if s.remaining < n then none else some (memRead s.buf s.pos n, s.advance n)

/-- Transient state is gone at the end of a decode, success or failure (R37). -/
def State.discard (s : State) : State :=
  { s with npkt := 0, frames := [], acc := 0, running := .idle }

/-- Success: ERR = OK, ERRSUB = 0, ERRPOS = 0. There is no other return from an error (R200, R208). -/
def State.succeed (s : State) : State :=
  { s with err := .ok, errSub := .none, errPos := 0 }

/-- The rows of R206: which command, or which phase of DECODEOUTER, an error ends. -/
inductive ErrorRow where
  | load | pop | decode | encode
deriving DecidableEq, Repr

/-- What an error leaves behind, the columns of R206 but for ERR, ERRSUB and ERRPOS. A decode leaves WARN
alone, a DECODEOUTER leaves it 0. -/
def State.unwind (row : ErrorRow) (s : State) : State :=
  match row with
  | .load => { s with buf := [], pos := 0, tree := none, warn := false }
  | .pop => s
  | .decode => State.discard { s with tree := none, warn := if s.running = .decodeOuter then false else s.warn }
  | .encode => { s with out := [] }

/-- Taking an error (R206): the row's effect, then ERR, ERRSUB, and ERRPOS the POS after that effect. -/
def State.takeError (row : ErrorRow) (e : Err) (sub : ErrSub) (s : State) : State :=
  { s.unwind row with err := e, errSub := sub, errPos := (s.unwind row).pos }

/-- What a command raises: an error and its sub-cause (R200, R201). -/
abbrev Raised := Err × ErrSub

/-- The two ceilings at a packet's entry (R121, R161): depth first, then the packet is counted and the count
checked; answers the new count. -/
def entry (cfg : Config) (d npkt : Nat) : Except Raised Nat :=
  if passes d cfg.maxDepth then .error (.limitExceeded, .depth)
  else if passes (npkt + 1) cfg.maxPackets then .error (.limitExceeded, .packets)
  else .ok (npkt + 1)

/-- `enter(d)` of R121, before any bit of the packet is read; `body` runs when no ceiling refuses it. -/
def State.enter (body : State → State) (s : State) : State :=
  match entry s.cfg s.depth s.npkt with
  | .error (e, sub) => s.takeError .decode e sub
  | .ok npkt => body { s with npkt := npkt }

end Sys2Proof.Machine
end

