-- ==== Sys2Proof/Machine/Operands.lean ====
section
/-! DEFINITION. The operand forms: hexadecimal text and bits (R11, R51), the base-16 digits of a Literal's
value (R78, R79), the byte view of a buffer (R52), and the measures and checks on a packet tree (R24 to R26,
R77). -/

namespace Sys2Proof.Machine

/-- `hexval` of R11: '0'..'9', 'A'..'F' and 'a'..'f'; any other character has none. PRESUMED (log entry 7): the
ASCII codes, which R11 lists from general knowledge. -/
def hexval (c : Char) : Option Nat :=
  let n := c.toNat
  if 0x30 ≤ n ∧ n ≤ 0x39 then some (n - 0x30)
  else if 0x41 ≤ n ∧ n ≤ 0x46 then some (n - 0x41 + 10)
  else if 0x61 ≤ n ∧ n ≤ 0x66 then some (n - 0x61 + 10)
  else none

/-- The upper-case digit of a value below 16 (R11). -/
def hexDigit (v : Nat) : Char :=
  if v < 10 then Char.ofNat (0x30 + v) else Char.ofNat (0x41 + (v - 10))

/-- `toHex(B)` of R11 for a bit sequence whose length is a multiple of 4; a shorter last group is dropped. -/
def toHex : Bits → List Char
  | a :: b :: c :: d :: rest => hexDigit (val [a, b, c, d]) :: toHex rest
  | _ => []

/-- The value of base-16 digits, most significant first, over a start value (R78). -/
def valueOf (start : Nat) (digits : List Nat) : Nat :=
  digits.foldl (fun value chunk => value * 16 + chunk) start

/-- The base-16 digits of `value`, put before the less significant digits `tail`; by fuel, one a digit. -/
def digitsOnto : Nat → Nat → List Nat → List Nat
  | 0, value, tail => value % 16 :: tail
  | fuel + 1, value, tail =>
    if value < 16 then value :: tail else digitsOnto fuel (value / 16) (value % 16 :: tail)

/-- `digits(value)` of R79: most significant first, no leading zero digit, and `digits(0) = [0]`. Each
digit but the last takes 4 off the binary logarithm, so that much fuel is enough. -/
def digits (value : Nat) : List Nat :=
  digitsOnto value.log2 value []

/-- The groups of a Literal with these chunks: continue flag 1 on all but the last (R72, R163). -/
def groups : List Nat → Bits
  | [] => []
  | [d] => groupBits false d
  | d :: ds => groupBits true d ++ groups ds

/-- Bit j of byte k of a buffer's byte view (R52), bit 7 the first and of weight 128: bit address a is bit
`7 - a mod 8` of byte `a // 8`. None where the buffer has no such bit, as in the low nibble of the last byte after
an odd number of hex digits. -/
def byteBit (b : Bits) (k j : Nat) : Option Bool :=
  if j < 8 then bitAt b (8 * k + (7 - j)) else none

/-- The high nibble of byte k (R52), its bits 7 to 4: defined in the last byte too when LEN is 4 modulo 8. -/
def highNibble (b : Bits) (k : Nat) : Option Nat :=
  if b.length < 8 * k + 4 then none else some (memRead b (8 * k) 4)

/-- The value of byte k (R52), the bits from 8k with the first of weight 128; none where some of its bits are not
defined, and then `byteBit` and `highNibble` still give those that are. -/
def byteView (b : Bits) (k : Nat) : Option Nat :=
  if b.length < 8 * k + 8 then none else some (memRead b (8 * k) 8)

/-- How many children a list holds. -/
def Packets.length : Packets → Nat
  | .nil => 0
  | .cons _ cs => Packets.length cs + 1

/-- `cs ++ [c]` of R10. -/
def Packets.snoc : Packets → Packet → Packets
  | .nil, c => .cons c .nil
  | .cons d ds, c => .cons d (Packets.snoc ds c)

/-- The types that require exactly two children (R22). -/
def comparison : PacketType → Bool
  | .greaterThan | .lessThan | .equalTo => true
  | _ => false

/-- The closing checks of R134 and R135: at least one child, and exactly two under a comparison. -/
def arityOk (t : PacketType) (n : Nat) : Bool :=
  decide (n ≠ 0) && (!comparison t || decide (n = 2))

mutual

/-- `wf(p)` of R25. -/
def wf : Packet → Bool
  | .lit _ _ => true
  | .op _ t _ cs => decide (t ≠ .literal) && arityOk t (Packets.length cs) && wfAll cs

/-- `wf` of every child. -/
def wfAll : Packets → Bool
  | .nil => true
  | .cons c cs => wf c && wfAll cs

end

mutual

/-- `nodes(p)` of R26. -/
def nodes : Packet → Nat
  | .lit _ _ => 1
  | .op _ _ _ cs => 1 + nodesAll cs

/-- The sum of `nodes` over children. -/
def nodesAll : Packets → Nat
  | .nil => 0
  | .cons c cs => nodes c + nodesAll cs

end

mutual

/-- `depth(p)` of R26; 1 for an operator with no children. -/
def depth : Packet → Nat
  | .lit _ _ => 1
  | .op _ _ _ cs => 1 + depthAll cs

/-- The greatest `depth` among children, 0 if there are none. -/
def depthAll : Packets → Nat
  | .nil => 0
  | .cons c cs => max (depth c) (depthAll cs)

end

mutual

/-- Every Literal value in the tree is within VALUE_BITS (R140). -/
def valuesFit (c : Ceiling) : Packet → Bool
  | .lit _ value => !tooWide value c
  | .op _ _ _ cs => valuesFitAll c cs

/-- `valuesFit` of every child. -/
def valuesFitAll (c : Ceiling) : Packets → Bool
  | .nil => true
  | .cons p ps => valuesFit c p && valuesFitAll c ps

end

mutual

/-- Semantic equality `p ~ q` of R24: equality that ignores every operator's mode. -/
def semEq : Packet → Packet → Bool
  | .lit v a, .lit w b => decide (v = w) && decide (a = b)
  | .op v t _ cs, .op w u _ ds => decide (v = w) && decide (t = u) && semEqAll cs ds
  | .lit _ _, .op _ _ _ _ => false
  | .op _ _ _ _, .lit _ _ => false

/-- Semantic equality child by child; the lengths must agree (R24). -/
def semEqAll : Packets → Packets → Bool
  | .nil, .nil => true
  | .cons c cs, .cons d ds => semEq c d && semEqAll cs ds
  | .nil, .cons _ _ => false
  | .cons _ _, .nil => false

end

mutual

/-- Every operator of the tree has mode m (R168 b). -/
def modesAre (m : LengthMode) : Packet → Bool
  | .lit _ _ => true
  | .op _ _ mode cs => decide (mode = m) && modesAreAll m cs

/-- `modesAre` of every child. -/
def modesAreAll (m : LengthMode) : Packets → Bool
  | .nil => true
  | .cons c cs => modesAre m c && modesAreAll m cs

end

mutual

/-- `plen` of R77 for the packet's own encoding: 6 + 5 per group, or the header and the children. -/
def plen : Packet → Nat
  | .lit _ value => 6 + 5 * (digits value).length
  | .op _ _ .totalBits cs => 22 + plenAll cs
  | .op _ _ .immediateCount cs => 18 + plenAll cs

/-- The sum of `plen` over children. -/
def plenAll : Packets → Nat
  | .nil => 0
  | .cons c cs => plen c + plenAll cs

end

end Sys2Proof.Machine
end

