-- ==== Sys2Proof/Machine/Cursor.lean ====
section
/-! DEFINITION. The BitCursor's three commands: LOADHEX, POP and REMAINING (R100, R102, R103). -/

namespace Sys2Proof.Machine

/-- The scan of R100 from character i on: at each character first the capacity, then the digit. -/
def scanHex (maxBits : Nat) : Nat → List Char → Except Raised Bits
  | _, [] => .ok []
  | i, c :: cs =>
    if maxBits < 4 * (i + 1) then .error (.limitExceeded, .buffer)
    else
      match hexval c with
      | none => .error (.malformedInput, .none)
      | some v =>
        match scanHex maxBits (i + 1) cs with
        | .error e => .error e
        | .ok rest => .ok (bitsOf v 4 ++ rest)

/-- LOADHEX (R100): the old cursor is gone whatever happens. -/
def loadHex (text : List Char) (s : State) : State :=
  match scanHex s.cfg.maxBits 0 text with
  | .error (e, sub) => s.takeError .load e sub
  | .ok bits => State.succeed { s with buf := bits, pos := 0, tree := none, warn := false }

/-- POP (R102): the operand's range comes before the bits that remain. -/
def popCommand (n : Nat) (s : State) : State :=
  if n < 1 ∨ s.cfg.popMax < n then s.takeError .pop .illegalOperand .none
  else
    match s.popBits n with
    | none => s.takeError .pop .insufficientBits .none
    | some (v, s) => State.succeed { s with ret := v }

/-- REMAINING (R103). -/
def remainingCommand (s : State) : State :=
  State.succeed { s with ret := s.remaining }

end Sys2Proof.Machine
end

