-- ==== Sys2Proof/Machine/Flags.lean ====
section
/-! DEFINITION. The one flag the core has, WARN, and the one computation of it (R30, R139). -/

namespace Sys2Proof.Machine

/-- The trailing bits of the loaded transmission: BUF[POS .. LEN). They are read, not consumed (R139). -/
def State.trailing (s : State) : Bits :=
  s.buf.drop s.pos

/-- `trailingWarn()` of R139: four or more bits are left, or one of them is 1. -/
def trailingWarn (s : State) : Bool :=
  decide (4 ≤ s.remaining) || s.trailing.any id

end Sys2Proof.Machine
end

