-- ==== Sys2Proof/Machine/Frames.lean ====
section
/-! DEFINITION. The decoder's control transfer (R125): what happens when a packet is complete. It goes to the
innermost frame, which either waits for another child or closes and is itself complete; the outer packet
ends the command. -/

namespace Sys2Proof.Machine

/-- The loop test of R125 on the innermost frame. -/
inductive FrameStatus where
  /-- Another child is read. -/
  | wantsChild
  /-- The children consumed more than totalChildBits (R126). -/
  | overshot
  /-- The children section is complete. -/
  | full
deriving DecidableEq, Repr

/-- Mode 0 compares the bits consumed since the section's start with its total; mode 1 counts children (R125,
R126). -/
def Frame.status (pos : Nat) (f : Frame) : FrameStatus :=
  match f.framing with
  | .total bits start =>
    if pos - start < bits then .wantsChild else if bits < pos - start then .overshot else .full
  | .count n => if Packets.length f.children < n then .wantsChild else .full

/-- The retained mode of an operator (R21, R38). -/
def Framing.mode : Framing → LengthMode
  | .total _ _ => .totalBits
  | .count _ => .immediateCount

/-- The operator a frame builds when it closes (R125). -/
def Frame.packet (f : Frame) : Packet :=
  .op f.version f.type f.framing.mode f.children

/-- A child is complete: `children ++ [dec(d+1)]` (R125). -/
def Frame.addChild (f : Frame) (p : Packet) : Frame :=
  { f with children := Packets.snoc f.children p }

/-- The outer packet is complete: TREE, ERR = OK, and WARN when the command is a DECODEOUTER (R120, R138). -/
def State.finishDecode (p : Packet) (s : State) : State :=
  State.succeed (State.discard
    { s with tree := some p, warn := if s.running = .decodeOuter then trailingWarn s else s.warn })

/-- Frame f, over the frames `below`, has just been opened or has just been given a child: the loop test,
then the closing checks in the order of R136, then completion of the operator one frame further down. -/
def resume (s : State) (f : Frame) (below : List Frame) : State :=
  match f.status s.pos with
  | .wantsChild => { s with frames := f :: below }
  | .overshot => s.takeError .decode .framingMismatch .none
  | .full =>
    if arityOk f.type (Packets.length f.children) then
      match below with
      | [] => s.finishDecode f.packet
      | g :: lower => resume s (g.addChild f.packet) lower
    else
      s.takeError .decode .invalidStructure .none

/-- Packet p is complete, POS standing after its last bit: it ends the command when no frame is open, and is
the innermost frame's next child otherwise. -/
def State.deliver (p : Packet) (s : State) : State :=
  match s.frames with
  | [] => s.finishDecode p
  | f :: below => resume s (f.addChild p) below

end Sys2Proof.Machine
end

