-- ==== Sys2Proof/Machine/Decoder.lean ====
section
/-! DEFINITION. The Decoder's two commands and the fetching of the next packet's prefix (R120, R122, R138). A
decode is begun in one step and then runs one instruction a step: DESIGN CHOICE (log entry 1). -/

namespace Sys2Proof.Machine

/-- The transient state is created at the start of the command (R37): NPKT 0, no frame, so depth 1 (R120,
R141). -/
def State.beginDecode (r : Running) (s : State) : State :=
  { s with npkt := 0, frames := [], acc := 0, running := r }

/-- DECODE (R120): it decodes one packet from the cursor as it stands. -/
def decodeCommand (s : State) : State :=
  s.beginDecode .decode

/-- DECODEOUTER (R138): the load phase, and on its success the decode. -/
def decodeOuterCommand (text : List Char) (s : State) : State :=
  let loaded := loadHex text s
  if loaded.err = .ok then loaded.beginDecode .decodeOuter else loaded

/-- The instruction at POS (R122): it is read from BUF[POS .. LEN), and nothing is consumed yet. -/
def fetch (s : State) : Except DecodeError (Instr × Bits) :=
  decode s.trailing

/-- The packet at POS ends before its prefix does: after the ceilings of R121, the fields that fit are consumed
and the one `offset` bits in raises InsufficientBits (R101, R122). -/
def truncated (offset : Nat) (s : State) : State :=
  s.enter fun s => (s.advance offset).takeError .decode .insufficientBits .none

/-- BUF with the bits `b` standing at POS, and zeros after them up to a whole hex digit (R32). -/
def placeBits (b : Bits) (s : State) : Bits :=
  let upToPos := (s.buf ++ List.replicate (s.pos - s.buf.length) false).take s.pos
  let filled := upToPos ++ b
  filled ++ List.replicate ((4 - filled.length % 4) % 4) false

end Sys2Proof.Machine
end

