-- ==== Sys2Proof/Machine/Encoder.lean ====
section
/-! DEFINITION. The Encoder: validation, serialisation, padding and the ENCODE command (R160 to R167). -/

namespace Sys2Proof.Machine

mutual

/-- `validate(p, d)` of R161, in pre-order; threads NPKT, and answers it. -/
def validate (cfg : Config) : Packet → Nat → Nat → Except Raised Nat
  | .lit _ value, d, npkt =>
    match entry cfg d npkt with
    | .error e => .error e
    | .ok npkt => if tooWide value cfg.valueBits then .error (.limitExceeded, .value) else .ok npkt
  | .op _ t _ cs, d, npkt =>
    match entry cfg d npkt with
    | .error e => .error e
    | .ok npkt =>
      if t = .literal ∨ arityOk t (Packets.length cs) = false then .error (.invalidStructure, .none)
      else validateAll cfg cs (d + 1) npkt

/-- `validate` of every child, left to right. -/
def validateAll (cfg : Config) : Packets → Nat → Nat → Except Raised Nat
  | .nil, _, npkt => .ok npkt
  | .cons c cs, d, npkt =>
    match validate cfg c d npkt with
    | .error e => .error e
    | .ok npkt => validateAll cfg cs d npkt

end

/-- The effective mode m' of R162. -/
def effectiveMode (policy : EncPolicy) (m : LengthMode) : LengthMode :=
  match policy with
  | .retain => m
  | .forceCount => .immediateCount

/-- An operator around its encoded children: the total of R164 or the count of R165 must fit its field. -/
def encOperator (version : Version) (t : PacketType) (mode : LengthMode) (count : Nat) (body : Bits) :
    Except Raised Bits :=
  match mode with
  | .totalBits =>
    if 32767 < body.length then .error (.encodeOverflow, .none)
    else .ok (totalHeader version t body.length ++ body)
  | .immediateCount =>
    if 2047 < count then .error (.encodeOverflow, .none)
    else .ok (countHeader version t count ++ body)

mutual

/-- `enc(p)` of R162: the unpadded encoding; children come first, so an overflow is reported in post-order. -/
def enc (policy : EncPolicy) : Packet → Except Raised Bits
  | .lit v value => .ok (headerBits v .literal ++ groups (digits value))
  | .op v t m cs =>
    match encAll policy cs with
    | .error e => .error e
    | .ok body => encOperator v t (effectiveMode policy m) (Packets.length cs) body

/-- The children's encodings, back to back (R162). -/
def encAll (policy : EncPolicy) : Packets → Except Raised Bits
  | .nil => .ok []
  | .cons c cs =>
    match enc policy c with
    | .error e => .error e
    | .ok b =>
      match encAll policy cs with
      | .error e => .error e
      | .ok bs => .ok (b ++ bs)

end

/-- `pad` of R166 for an encoding of n bits. -/
def padLength (n : Nat) : Nat :=
  (8 - n % 8) % 8

/-- Zero bits up to a byte boundary (R166). -/
def padded (b : Bits) : Bits :=
  b ++ List.replicate (padLength b.length) false

/-- The output of R160: validation, encoding, capacity, in that order (R167). -/
def encoded (cfg : Config) (p : Packet) : Except Raised Bits :=
  match validate cfg p 1 0 with
  | .error e => .error e
  | .ok _ =>
    match enc cfg.encPolicy p with
    | .error e => .error e
    | .ok b =>
      if cfg.maxBits < (padded b).length then .error (.limitExceeded, .buffer) else .ok (padded b)

/-- ENCODE (R160). -/
def encodeCommand (p : Packet) (s : State) : State :=
  match encoded s.cfg p with
  | .error (e, sub) => s.takeError .encode e sub
  | .ok b => State.succeed { s with out := b }

end Sys2Proof.Machine
end

