-- ==== Sys2Proof/Machine/Commands.lean ====
section
/-! DEFINITION. The six host commands, and what an idle core does with the host's next move (R89, R230, R240). -/

namespace Sys2Proof.Machine

/-- The effect of a command on an idle core; a DECODE or a loaded DECODEOUTER is begun by it (R89). -/
def command (c : Command) (s : State) : State :=
  match c with
  | .loadHex text => loadHex text s
  | .pop n => popCommand n s
  | .remaining => remainingCommand s
  | .decode => decodeCommand s
  | .decodeOuter text => decodeOuterCommand text s
  | .encode p => encodeCommand p s

/-- An idle core takes the host's next move, in the order issued (R58), and holds its registers when there is
none (R217, R230). A reset keeps the configuration the instance was built with (R34, R41). -/
def serve (s : State) : State :=
  match s.pending with
  | [] => s
  | .issue c :: rest => command c { s with pending := rest }
  | .reset :: rest => State.afterReset s.cfg rest

end Sys2Proof.Machine
end

