-- ==== Sys2Proof/Machine/Literal.lean ====
section
/-! DEFINITION. The LITERAL family: one instruction (R123, R124). -/

namespace Sys2Proof.Machine

/-- What follows a chunk in R123: it is accumulated, the width is checked (R124), and either the Literal is
complete or `next` reads another group. -/
def afterChunk (version : Version) (next : State → State) (more : Bool) (chunk : Nat) (s : State) : State :=
  let value := s.acc * 16 + chunk
  if tooWide value s.cfg.valueBits then
    s.takeError .decode .limitExceeded .value
  else if more then
    next { s with acc := value }
  else
    State.deliver (.lit version value) { s with acc := 0 }

/-- The loop of R123 from its second group on: a flag and a chunk are two pops. A group takes 5 bits, so the
number of bits left is enough fuel; with none left the flag's pop fails. -/
def literalGroups (version : Version) : Nat → State → State
  | 0, s => s.takeError .decode .insufficientBits .none
  | fuel + 1, s =>
    match s.popBits 1 with
    | none => s.takeError .decode .insufficientBits .none
    | some (flag, s) =>
      match s.popBits 4 with
      | none => s.takeError .decode .insufficientBits .none
      | some (chunk, s) => afterChunk version (literalGroups version fuel) (flag == 1) chunk s

/-- LITERAL (R123): the packet is entered (R121), its 11-bit prefix consumed, the first group's chunk taken
from the instruction and any further groups from the stream, all in one step. DESIGN CHOICE (log entry 13). -/
def execLiteral (version : Version) (more : Bool) (chunk : Nat) (s : State) : Host.Outcome State Fault Refusal :=
  .next (s.enter fun s =>
    afterChunk version (literalGroups version s.remaining) more chunk { s.advance 11 with acc := 0 })

end Sys2Proof.Machine
end

