-- ==== Sys2Proof/Machine/Operators.lean ====
section
/-! DEFINITION. The operator family: seven types in two framing modes (R125 to R133). Reading an operator's
header opens a frame one level deeper, and control goes to the next bit (R125). -/

namespace Sys2Proof.Machine

/-- An operator in mode 0 (R125, R73): the 22-bit prefix is consumed and the children section starts here. A
total of 0 closes the frame at once, without children (R134). -/
def openTotal (type : PacketType) (version : Version) (total : Nat) (s : State) :
    Host.Outcome State Fault Refusal :=
  .next (s.enter fun s =>
    resume (s.advance 22) ⟨version, type, .total total (s.pos + 22), .nil⟩ s.frames)

/-- An operator in mode 1 (R125, R74): the 18-bit prefix is consumed and `count` children follow. A count of 0
closes the frame at once, without children (R134). -/
def openCount (type : PacketType) (version : Version) (count : Nat) (s : State) :
    Host.Outcome State Fault Refusal :=
  .next (s.enter fun s =>
    resume (s.advance 18) ⟨version, type, .count count, .nil⟩ s.frames)

/-- SUM.T (R127). -/
def execSumT (version : Version) (total : Nat) (s : State) : Host.Outcome State Fault Refusal :=
  openTotal .sum version total s

/-- SUM.C (R127). -/
def execSumC (version : Version) (count : Nat) (s : State) : Host.Outcome State Fault Refusal :=
  openCount .sum version count s

/-- PRODUCT.T (R128). -/
def execProductT (version : Version) (total : Nat) (s : State) : Host.Outcome State Fault Refusal :=
  openTotal .product version total s

/-- PRODUCT.C (R128). -/
def execProductC (version : Version) (count : Nat) (s : State) : Host.Outcome State Fault Refusal :=
  openCount .product version count s

/-- MINIMUM.T (R129). -/
def execMinimumT (version : Version) (total : Nat) (s : State) : Host.Outcome State Fault Refusal :=
  openTotal .minimum version total s

/-- MINIMUM.C (R129). -/
def execMinimumC (version : Version) (count : Nat) (s : State) : Host.Outcome State Fault Refusal :=
  openCount .minimum version count s

/-- MAXIMUM.T (R130). -/
def execMaximumT (version : Version) (total : Nat) (s : State) : Host.Outcome State Fault Refusal :=
  openTotal .maximum version total s

/-- MAXIMUM.C (R130). -/
def execMaximumC (version : Version) (count : Nat) (s : State) : Host.Outcome State Fault Refusal :=
  openCount .maximum version count s

/-- GREATER_THAN.T (R131). -/
def execGreaterThanT (version : Version) (total : Nat) (s : State) : Host.Outcome State Fault Refusal :=
  openTotal .greaterThan version total s

/-- GREATER_THAN.C (R131). -/
def execGreaterThanC (version : Version) (count : Nat) (s : State) : Host.Outcome State Fault Refusal :=
  openCount .greaterThan version count s

/-- LESS_THAN.T (R132). -/
def execLessThanT (version : Version) (total : Nat) (s : State) : Host.Outcome State Fault Refusal :=
  openTotal .lessThan version total s

/-- LESS_THAN.C (R132). -/
def execLessThanC (version : Version) (count : Nat) (s : State) : Host.Outcome State Fault Refusal :=
  openCount .lessThan version count s

/-- EQUAL_TO.T (R133). -/
def execEqualToT (version : Version) (total : Nat) (s : State) : Host.Outcome State Fault Refusal :=
  openTotal .equalTo version total s

/-- EQUAL_TO.C (R133). -/
def execEqualToC (version : Version) (count : Nat) (s : State) : Host.Outcome State Fault Refusal :=
  openCount .equalTo version count s

end Sys2Proof.Machine
end

