-- ==== Sys2Proof/Machine/Dispatch.lean ====
section
/-! DEFINITION. One arm per instruction: each is one direct call of its meaning. -/

namespace Sys2Proof.Machine

def exec (i : Instr) (s : State) : Host.Outcome State Fault Refusal :=
  match i with
  | .literal version more chunk => Sys2Proof.Machine.execLiteral version more chunk s
  | .sumT version total => Sys2Proof.Machine.execSumT version total s
  | .sumC version count => Sys2Proof.Machine.execSumC version count s
  | .productT version total => Sys2Proof.Machine.execProductT version total s
  | .productC version count => Sys2Proof.Machine.execProductC version count s
  | .minimumT version total => Sys2Proof.Machine.execMinimumT version total s
  | .minimumC version count => Sys2Proof.Machine.execMinimumC version count s
  | .maximumT version total => Sys2Proof.Machine.execMaximumT version total s
  | .maximumC version count => Sys2Proof.Machine.execMaximumC version count s
  | .greaterThanT version total => Sys2Proof.Machine.execGreaterThanT version total s
  | .greaterThanC version count => Sys2Proof.Machine.execGreaterThanC version count s
  | .lessThanT version total => Sys2Proof.Machine.execLessThanT version total s
  | .lessThanC version count => Sys2Proof.Machine.execLessThanC version count s
  | .equalToT version total => Sys2Proof.Machine.execEqualToT version total s
  | .equalToC version count => Sys2Proof.Machine.execEqualToC version count s

end Sys2Proof.Machine
end

