-- ==== Sys2Proof/Machine/Step.lean ====
section
/-! DEFINITION. One step: an idle core serves the host, a decoding core runs the instruction at POS. -/

namespace Sys2Proof.Machine

/-- One step. Idle: the host's next move. Decoding: the packet at POS is fetched and executed (R122), or ends
the command because it is truncated. -/
def step (s : State) : Host.Outcome State Fault Refusal :=
  match s.running with
  | .idle => .next (serve s)
  | .decode | .decodeOuter =>
    match fetch s with
    | .ok (i, _) => exec i s
    | .error (.insufficientBits offset) => .next (truncated offset s)

/-- s with the opcode-table number w of nbits bits standing at POS and a decode in progress, so that the next
step fetches and runs it. DESIGN CHOICE and DEDUCED (log entries 2 and 4). -/
def State.withFetchWord (s : State) (nbits w : Nat) : State :=
  { s with
    buf := placeBits (tableBits nbits w) s
    running := if s.running = .idle then .decode else s.running }

end Sys2Proof.Machine
end

