-- ==== Sys2Proof/Machine/Companion.lean ====
section
/-! DEFINITION. The companion functions outside the block: `evaluate` and `versionSum` (R180 to R184). They
read no register. `render` (R185) has no definition to give: it is `Config.render`. -/

namespace Sys2Proof.Machine

/-- What `evaluate` answers. -/
inductive Evaluation where
  /-- The packet's value, an unbounded natural (R180). -/
  | value (n : Nat)
  /-- ArityError (R181). -/
  | arityError
  /-- An operator of type LITERAL is outside the function's domain and is refused by name (R181,
  `93_implementation_defined.md` U7). DESIGN CHOICE (log entry 9): this comes before the arity check. -/
  | literalOperator
deriving DecidableEq, Repr

/-- `combine(t, xs)` of R182 and R183. The first value is the child earlier on the wire. A number of values that
`checkArity` refuses has no combination. -/
def combine (t : PacketType) (values : List Nat) : Evaluation :=
  match t, values with
  | .sum, x :: xs => .value (xs.foldl (· + ·) x)
  | .product, x :: xs => .value (xs.foldl (· * ·) x)
  | .minimum, x :: xs => .value (xs.foldl min x)
  | .maximum, x :: xs => .value (xs.foldl max x)
  | .greaterThan, [a, b] => .value (if b < a then 1 else 0)
  | .lessThan, [a, b] => .value (if a < b then 1 else 0)
  | .equalTo, [a, b] => .value (if a = b then 1 else 0)
  | .literal, _ => .literalOperator
  | _, _ => .arityError

mutual

/-- `evaluate` of R180: the arity is checked at a node before its children are evaluated (R181). -/
def evaluate : Packet → Evaluation
  | .lit _ value => .value value
  | .op _ t _ cs =>
    if t = .literal then .literalOperator
    else if arityOk t (Packets.length cs) = false then .arityError
    else
      match evaluateAll cs with
      | .error e => e
      | .ok values => combine t values

/-- The children's values in order; the first child without one propagates (R180). -/
def evaluateAll : Packets → Except Evaluation (List Nat)
  | .nil => .ok []
  | .cons c cs =>
    match evaluate c with
    | .value n =>
      match evaluateAll cs with
      | .error e => .error e
      | .ok ns => .ok (n :: ns)
    | .arityError => .error .arityError
    | .literalOperator => .error .literalOperator

end

mutual

/-- `versionSum` of R184; total on every packet. -/
def versionSum : Packet → Nat
  | .lit v _ => v.toNat
  | .op v _ _ cs => v.toNat + versionSumAll cs

/-- The sum of `versionSum` over children. -/
def versionSumAll : Packets → Nat
  | .nil => 0
  | .cons c cs => versionSum c + versionSumAll cs

end

end Sys2Proof.Machine
end

