-- ==== Sys2Proof/Machine/Recursive.lean ====
section
/-! DEFINITION. The decoder as the spec writes it: the recursive `dec(d)` of R122 to R136, with fuel (R37, R137),
and the whole DECODE command at once (R120). The stepping machine runs one instruction a step instead; that the
two agree is a statement of this package. -/

namespace Sys2Proof.Machine

/-- How a call of the recursive decoder ends. -/
inductive Parse (α : Type) where
  /-- It returns, with POS and NPKT as they then stand. -/
  | done (a : α) (pos npkt : Nat)
  /-- It raises, with POS where the failing check was made. -/
  | raised (e : Err) (sub : ErrSub) (pos : Nat)
  /-- The fuel ran out; with the fuel of R137 it never does. -/
  | exhausted
deriving DecidableEq, Repr

/-- `pop(n)` at a position (R101). -/
def popAt (buf : Bits) (pos n : Nat) : Option Nat :=
  if buf.length - pos < n then none else some (memRead buf pos n)

/-- The loop of R123. -/
def decGroups (cfg : Config) (buf : Bits) (version : Version) : Nat → Nat → Nat → Nat → Parse Packet
  | 0, _, _, _ => .exhausted
  | fuel + 1, value, pos, npkt =>
    match popAt buf pos 1 with
    | none => .raised .insufficientBits .none pos
    | some flag =>
      match popAt buf (pos + 1) 4 with
      | none => .raised .insufficientBits .none (pos + 1)
      | some chunk =>
        if tooWide (value * 16 + chunk) cfg.valueBits then .raised .limitExceeded .value (pos + 5)
        else if flag = 0 then .done (.lit version (value * 16 + chunk)) (pos + 5) npkt
        else decGroups cfg buf version fuel (value * 16 + chunk) (pos + 5) npkt

/-- The mode-0 loop of R125 and the check of R126, each child read by `child`. -/
def decTotal (child : Nat → Nat → Parse Packet) (total start : Nat) :
    Nat → Packets → Nat → Nat → Parse Packets
  | fuel, cs, pos, npkt =>
    if pos - start < total then
      match fuel with
      | 0 => .exhausted
      | fuel + 1 =>
        match child pos npkt with
        | .done p pos npkt => decTotal child total start fuel (Packets.snoc cs p) pos npkt
        | .raised e sub pos => .raised e sub pos
        | .exhausted => .exhausted
    else if total < pos - start then .raised .framingMismatch .none pos
    else .done cs pos npkt

/-- The mode-1 loop of R125: exactly so many children. -/
def decCount (child : Nat → Nat → Parse Packet) : Nat → Packets → Nat → Nat → Parse Packets
  | 0, cs, pos, npkt => .done cs pos npkt
  | n + 1, cs, pos, npkt =>
    match child pos npkt with
    | .done p pos npkt => decCount child n (Packets.snoc cs p) pos npkt
    | .raised e sub pos => .raised e sub pos
    | .exhausted => .exhausted

/-- The closing of R125: the checks of R134 and R135, then the operator is built. -/
def decClose (version : Version) (t : PacketType) (mode : LengthMode) : Parse Packets → Parse Packet
  | .done cs pos npkt =>
    if arityOk t (Packets.length cs) then .done (.op version t mode cs) pos npkt
    else .raised .invalidStructure .none pos
  | .raised e sub pos => .raised e sub pos
  | .exhausted => .exhausted

/-- `decOperator` of R125 from the lengthMode bit at `pos` on. -/
def decOperator (buf : Bits) (child : Nat → Nat → Parse Packet) (fuel : Nat) (version : Version)
    (t : PacketType) (pos npkt : Nat) : Parse Packet :=
  match popAt buf pos 1 with
  | none => .raised .insufficientBits .none pos
  | some mode =>
    if mode = 0 then
      match popAt buf (pos + 1) 15 with
      | none => .raised .insufficientBits .none (pos + 1)
      | some total => decClose version t .totalBits (decTotal child total (pos + 16) fuel .nil (pos + 16) npkt)
    else
      match popAt buf (pos + 1) 11 with
      | none => .raised .insufficientBits .none (pos + 1)
      | some n => decClose version t .immediateCount (decCount child n .nil (pos + 12) npkt)

/-- `dec(d)` of R122. -/
def dec (cfg : Config) (buf : Bits) : Nat → Nat → Nat → Nat → Parse Packet
  | 0, _, _, _ => .exhausted
  | fuel + 1, d, pos, npkt =>
    match entry cfg d npkt with
    | .error (e, sub) => .raised e sub pos
    | .ok npkt =>
      match popAt buf pos 3 with
      | none => .raised .insufficientBits .none pos
      | some v =>
        match popAt buf (pos + 3) 3 with
        | none => .raised .insufficientBits .none (pos + 3)
        | some t =>
          if PacketType.ofCode (Fin.ofNat 8 t) = .literal then
            decGroups cfg buf (BitVec.ofNat 3 v) (buf.length - pos) 0 (pos + 6) npkt
          else
            decOperator buf (dec cfg buf fuel (d + 1)) fuel (BitVec.ofNat 3 v) (PacketType.ofCode (Fin.ofNat 8 t))
              (pos + 6) npkt

/-- The fuel R137 gives: LEN - POS at entry, and one for the call that then finds no bit. -/
def State.decFuel (s : State) : Nat :=
  s.remaining + 1

/-- The outer packet at POS, read by the recursive decoder at depth 1 with NPKT 0 (R120). -/
def State.decOuter (s : State) : Parse Packet :=
  dec s.cfg s.buf s.decFuel 1 s.pos 0

/-- The decode in progress in s, whose outer packet stands at POS, run to its end at once (R120, R138): none
only if the fuel ran out. -/
def State.decodeAtOnce (s : State) : Option State :=
  match s.decOuter with
  | .done p pos _ => some (State.finishDecode p { s with pos := pos })
  | .raised e sub pos => some (State.takeError .decode e sub { s with pos := pos })
  | .exhausted => none

/-- A command as the host sees it, one atomic transition of an idle core (R58): what a decode leaves when it
has run to its end; none only if the fuel ran out. -/
def commandAtOnce (c : Command) (s : State) : Option State :=
  match (command c s).running with
  | .idle => some (command c s)
  | .decode | .decodeOuter => (command c s).decodeAtOnce

end Sys2Proof.Machine
end

