-- ==== Sys2Proof/Safety.lean ====
section
/-! DEFINITION. The terms claims are stated in: when a packet may be entered, what a tree within the ceilings
is, and the invariant every step keeps. -/

namespace Sys2Proof.Machine

/-- Neither ceiling of R121 refuses the packet about to be read. -/
def State.admits (s : State) : Bool :=
  !passes s.depth s.cfg.maxDepth && !passes (s.npkt + 1) s.cfg.maxPackets

/-- A tree the decoder may deliver (R140): well formed and within the ceilings of the configuration. -/
def treeFits (cfg : Config) (p : Packet) : Bool :=
  wf p && !passes (depth p) cfg.maxDepth && !passes (nodes p) cfg.maxPackets && valuesFit cfg.valueBits p

/-- The open frames hold only what a delivered tree may hold: operator types, children that are well formed and
within VALUE_BITS, and at no greater depth than MAX_DEPTH, the frame over `below` being at depth
`below.length + 1` (R26, R37); a children section starts at or before the cursor. -/
def framesFit (cfg : Config) (pos : Nat) : List Frame → Bool
  | [] => true
  | f :: below =>
    decide (f.type ≠ .literal) && wfAll f.children && valuesFitAll cfg.valueBits f.children &&
      !passes (below.length + 1 + depthAll f.children) cfg.maxDepth &&
      (match f.framing with
        | .total _ start => decide (start ≤ pos)
        | .count _ => true) &&
      framesFit cfg pos below

/-- The packets begun and not yet in TREE: each open operator and the children it holds (R26, R37 a). -/
def openNodes : List Frame → Nat
  | [] => 0
  | f :: below => 1 + nodesAll f.children + openNodes below

/-- What a failed decode leaves, written out from R206: the error, POS where the failing check was made and
ERRPOS its copy, no tree, WARN 0 after a DECODEOUTER and as it was after a DECODE, nothing transient
(the accumulated value 0: log entry 15). -/
def decodeFailure (e : Err) (sub : ErrSub) (pos : Nat) (s : State) : State :=
  { s with
    pos := pos, tree := none, err := e, errSub := sub, errPos := pos,
    warn := if s.running = .decodeOuter then false else s.warn,
    npkt := 0, frames := [], acc := 0, running := .idle }

/-- What a successful decode leaves, written out from R120, R138 and R139: the tree, POS after the packet, ERR =
OK, and after a DECODEOUTER the trailing-bit warning; nothing transient (the accumulated value 0: log entry 15). -/
def decodeSuccess (p : Packet) (pos : Nat) (s : State) : State :=
  { s with
    pos := pos, tree := some p, err := .ok, errSub := .none, errPos := 0,
    warn := if s.running = .decodeOuter then decide (4 ≤ s.buf.length - pos) || (s.buf.drop pos).any id else s.warn,
    npkt := 0, frames := [], acc := 0, running := .idle }

/-- What a failed load leaves, written out from R100 and R206. -/
def loadFailure (e : Err) (sub : ErrSub) (s : State) : State :=
  { s with buf := [], pos := 0, tree := none, warn := false, err := e, errSub := sub, errPos := 0 }

/-- What a failed ENCODE leaves, written out from R160 and R206. -/
def encodeFailure (e : Err) (sub : ErrSub) (s : State) : State :=
  { s with out := [], err := e, errSub := sub, errPos := s.pos }

/-- The state after an operator's mode-0 header opened its frame (R125). -/
def openedTotal (type : PacketType) (version : Version) (total : Nat) (s : State) : State :=
  { s with
    pos := s.pos + 22, npkt := s.npkt + 1,
    frames := ⟨version, type, .total total (s.pos + 22), .nil⟩ :: s.frames }

/-- The state after an operator's mode-1 header opened its frame (R125). -/
def openedCount (type : PacketType) (version : Version) (count : Nat) (s : State) : State :=
  { s with
    pos := s.pos + 18, npkt := s.npkt + 1,
    frames := ⟨version, type, .count count, .nil⟩ :: s.frames }

/-- After a child of frame f ended at `pos`, f's section still lacks bits, or children (R125). -/
def lacks (f : Frame) (pos : Nat) : Prop :=
  match f.framing with
  | .total bits start => pos - start < bits
  | .count n => Packets.length f.children + 1 < n

/-- After a child of frame f ended at `pos`, f's section is exactly complete (R125). -/
def completes (f : Frame) (pos : Nat) : Prop :=
  match f.framing with
  | .total bits start => pos - start = bits
  | .count n => Packets.length f.children + 1 = n

/-- After a child of frame f ended at `pos`, the children consumed more than the declared total (R126). -/
def overshoots (f : Frame) (pos : Nat) : Prop :=
  match f.framing with
  | .total bits start => bits < pos - start
  | .count _ => False

/-- The errors of R202 a command may leave in ERR, with their sub-causes; OK is always possible. -/
def mayRaise : Command → List (Err × ErrSub)
  | .loadHex _ => [(.malformedInput, .none), (.limitExceeded, .buffer)]
  | .pop _ => [(.insufficientBits, .none), (.illegalOperand, .none)]
  | .remaining => []
  | .decode =>
    [(.insufficientBits, .none), (.framingMismatch, .none), (.invalidStructure, .none), (.limitExceeded, .depth),
      (.limitExceeded, .packets), (.limitExceeded, .value)]
  | .decodeOuter _ =>
    [(.malformedInput, .none), (.insufficientBits, .none), (.framingMismatch, .none), (.invalidStructure, .none),
      (.limitExceeded, .depth), (.limitExceeded, .packets), (.limitExceeded, .buffer), (.limitExceeded, .value)]
  | .encode _ =>
    [(.invalidStructure, .none), (.limitExceeded, .depth), (.limitExceeded, .packets), (.limitExceeded, .buffer),
      (.limitExceeded, .value), (.encodeOverflow, .none)]

/-- The invariant of the core, in every configuration. -/
structure Inv (s : State) : Prop where
  /-- `0 <= POS <= LEN <= MAX_BITS` and `LEN mod 4 = 0` (R27, R104). -/
  cursor : s.pos ≤ s.len ∧ Memory.wf s.cfg.maxBits 4 s.buf = true
  /-- OUTLEN is a multiple of 8 and at most MAX_BITS (R31, R32). -/
  output : Memory.wf s.cfg.maxBits 8 s.out = true
  /-- The range of RET (R31). -/
  ret : s.ret ≤ max (2 ^ s.cfg.popMax - 1) s.cfg.maxBits
  /-- ERR is never ArityError (R203). -/
  err : s.err ≠ .arityError
  /-- ERRSUB is 0 exactly when ERR is not LimitExceeded (R201). -/
  errSub : s.errSub = .none ↔ s.err ≠ .limitExceeded
  /-- ERRPOS is 0 when ERR = OK, and never beyond LEN (R31, R207). -/
  errPos : (s.err = .ok → s.errPos = 0) ∧ s.errPos ≤ s.len
  /-- TREE holds nothing the decoder may not deliver (R31, R140). -/
  tree : ∀ p, s.tree = some p → treeFits s.cfg p = true
  /-- Between commands there is no transient state (R37, R41; the accumulated value 0 is the model's choice, log
  entry 15). -/
  idle : s.running = .idle → s.frames = [] ∧ s.npkt = 0 ∧ s.acc = 0
  /-- A decode in progress holds only what it may deliver (R37, R140). -/
  frames : framesFit s.cfg s.pos s.frames = true
  /-- NPKT counts every packet begun (R37 a) and is within its ceiling (R121). -/
  npkt : openNodes s.frames = s.npkt ∧ passes s.npkt s.cfg.maxPackets = false

end Sys2Proof.Machine
end

