-- ==== Sys2Proof/Certificates/Slice0/Obligations.lean ====
section
/-! DEFINITION. The statements for the provers, in the spec's order: encoding, the step, the LITERAL and operator
instructions, whole decodes, the cursor, the encoder, the companions, and rules of the whole machine. -/

open Sys2Proof Sys2Proof.Machine

/-! ### Encoding -/

/-- No bit of an encoding is dropped: the decoder reads back every well-formed instruction, whatever follows it
in the stream (R71 to R74, R76, R81). -/
def Obligations.DecodeOfEncodeIsTheInstruction : Prop :=
  ∀ (i : Instr) (rest : Bits), i.wellFormed = true → decode (encode i ++ rest) = .ok (i, rest)

/-- The other direction: each bit sequence has one reading, the decoded instruction is well formed, and its
encoding is the prefix that was read, of the length R72 to R74 give. -/
def Obligations.DecodedBitsAreTheEncoding : Prop :=
  ∀ (b rest : Bits) (i : Instr), decode b = .ok (i, rest) →
    i.wellFormed = true ∧ b = encode i ++ rest ∧ (encode i).length = i.prefixBits

/-- No header is reserved (R82): the decoder rejects nothing but a prefix that is cut short, at the first field
that does not fit (R122, R205 d). -/
def Obligations.OnlyATruncatedPrefixIsRejected : Prop :=
  ∀ (b : Bits) (size : Nat),
    size = (if val ((b.drop 3).take 3) = 4 then 11 else if b[6]? = some true then 18 else 22) →
    (b.length < 3 → decode b = .error (.insufficientBits 0)) ∧
    (3 ≤ b.length → b.length < 6 → decode b = .error (.insufficientBits 3)) ∧
    (b.length = 6 → decode b = .error (.insufficientBits 6)) ∧
    (7 ≤ b.length → b.length < size → decode b = .error (.insufficientBits 7)) ∧
    (size ≤ b.length → ∃ i : Instr, decode b = .ok (i, b.drop size) ∧ i.prefixBits = size)

/-- Words written out from the fixtures S1, S2, S5 and S7 decode to the instructions they stand for. -/
def Obligations.FixtureWordsDecode : Prop :=
  decode [true, true, false, true, false, false, true, false, true, true, true]
    = .ok (.literal 6 true 7, []) ∧
  decode [false, false, true, true, true, false, false, false, false, false, false, false, false, false, false, false,
    false, true, true, false, true, true] = .ok (.lessThanT 1 27, []) ∧
  decode [true, true, false, false, false, false, true, false, false, false, false, false, false, false, false, false,
    true, false] = .ok (.sumC 6 2, []) ∧
  decode [true, false, false, true, true, true, false, false, false, false, false, false, false, false, false, true,
    false, true, false, false, false, false] = .ok (.equalToT 4 80, [])

/-! ### The step -/

/-- While a decode runs and the bits at POS decode to i, a step is exec of i at that state; the model adds
nothing around exec (R122). -/
def Obligations.StepRunsTheDecodedInstruction : Prop :=
  ∀ (s : State) (i : Instr) (rest : Bits), s.running ≠ .idle → decode (s.buf.drop s.pos) = .ok (i, rest) →
    step s = exec i s

/-- Every step goes on: no state faults and no instruction is refused (R206). -/
def Obligations.EveryStepAnswersANextState : Prop :=
  (∀ s : State, ∃ t, step s = .next t) ∧ ∀ (i : Instr) (s : State), ∃ t, exec i s = .next t

/-- A packet whose prefix is cut short ends the decode with InsufficientBits where the first field that does not
fit starts (R101, R122, R206). -/
def Obligations.TruncatedPacketEndsTheDecode : Prop :=
  ∀ (s : State) (offset : Nat), s.running ≠ .idle → s.admits = true →
    decode (s.buf.drop s.pos) = .error (.insufficientBits offset) →
    step s = .next (decodeFailure .insufficientBits .none (s.pos + offset) s)

/-- The ceilings come before any bit of the packet, depth before packets; POS stays at the refused packet's first
bit (R121, R205 c). Stated of every step of a decode and of every instruction. -/
def Obligations.CeilingsRefuseAPacketAtItsEntry : Prop :=
  (∀ s : State, s.running ≠ .idle → passes s.depth s.cfg.maxDepth = true →
    step s = .next (decodeFailure .limitExceeded .depth s.pos s)) ∧
  (∀ s : State, s.running ≠ .idle → passes s.depth s.cfg.maxDepth = false →
    passes (s.npkt + 1) s.cfg.maxPackets = true →
    step s = .next (decodeFailure .limitExceeded .packets s.pos s)) ∧
  (∀ (i : Instr) (s : State), passes s.depth s.cfg.maxDepth = true →
    exec i s = .next (decodeFailure .limitExceeded .depth s.pos s)) ∧
  (∀ (i : Instr) (s : State), passes s.depth s.cfg.maxDepth = false →
    passes (s.npkt + 1) s.cfg.maxPackets = true →
    exec i s = .next (decodeFailure .limitExceeded .packets s.pos s))

/-- The frame of every instruction: BUF, OUT bit by bit, RET, the configuration and the host's moves stay, POS
never moves back, and until the decode has ended TREE, the error registers, WARN and the command in progress
stay too (R28, R36, R40, R62). -/
def Obligations.EveryInstructionKeepsItsFrame : Prop :=
  ∀ (i : Instr) (s t : State), exec i s = .next t →
    (∀ a, bitAt t.buf a = bitAt s.buf a) ∧ (∀ a, bitAt t.out a = bitAt s.out a) ∧
    t.buf = s.buf ∧ t.out = s.out ∧ t.ret = s.ret ∧ t.cfg = s.cfg ∧ t.pending = s.pending ∧ s.pos ≤ t.pos ∧
    (t.running ≠ .idle →
      t.running = s.running ∧ t.tree = s.tree ∧ t.err = s.err ∧ t.errSub = s.errSub ∧ t.errPos = s.errPos ∧
        t.warn = s.warn)

/-! ### LITERAL -/

/-- LITERAL as the outer packet: the first chunk and the groups that follow the prefix are accumulated as base-16
digits, the Literal is delivered and the decode ends after the last group (R72, R78, R123). -/
def Obligations.OuterLiteralIsDelivered : Prop :=
  ∀ (s : State) (version : Version) (chunk : Nat) (more : List Nat) (rest : Bits),
    s.admits = true → s.frames = [] → (∀ d ∈ more, d < 16) →
    s.buf.drop (s.pos + 11) = groups more ++ rest →
    tooWide (valueOf 0 (chunk :: more)) s.cfg.valueBits = false →
    exec (.literal version (decide (more ≠ [])) chunk) s =
      .next (decodeSuccess (.lit version (valueOf 0 (chunk :: more))) (s.pos + 11 + 5 * more.length) s)

/-- LITERAL as a child after which its parent still lacks children: it is appended to the innermost frame, which
stays open (R123, R125); the accumulated value is 0 again (log entry 13). -/
def Obligations.NestedLiteralJoinsItsFrame : Prop :=
  ∀ (s : State) (version : Version) (chunk : Nat) (more : List Nat) (rest : Bits) (f : Frame) (below : List Frame),
    s.admits = true → s.frames = f :: below → (∀ d ∈ more, d < 16) →
    s.buf.drop (s.pos + 11) = groups more ++ rest →
    tooWide (valueOf 0 (chunk :: more)) s.cfg.valueBits = false →
    lacks f (s.pos + 11 + 5 * more.length) →
    exec (.literal version (decide (more ≠ [])) chunk) s =
      .next { s with
        pos := s.pos + 11 + 5 * more.length, npkt := s.npkt + 1, acc := 0,
        frames :=
          ⟨f.version, f.type, f.framing, Packets.snoc f.children (.lit version (valueOf 0 (chunk :: more)))⟩ ::
            below }

/-- The width check runs after each chunk: the first group that makes the value too wide raises
LimitExceeded(VALUE), with POS just after that group's chunk (R124). -/
def Obligations.TooWideLiteralIsRefusedAtItsGroup : Prop :=
  (∀ (s : State) (version : Version) (more : Bool) (chunk : Nat),
    s.admits = true → tooWide chunk s.cfg.valueBits = true →
    exec (.literal version more chunk) s = .next (decodeFailure .limitExceeded .value (s.pos + 11) s)) ∧
  (∀ (s : State) (version : Version) (chunk : Nat) (good : List Nat) (more : Bool) (last : Nat) (rest : Bits),
    s.admits = true → (∀ d ∈ good, d < 16) → last < 16 →
    s.buf.drop (s.pos + 11) = good.flatMap (groupBits true) ++ groupBits more last ++ rest →
    tooWide (valueOf 0 (chunk :: good)) s.cfg.valueBits = false →
    tooWide (valueOf 0 (chunk :: good) * 16 + last) s.cfg.valueBits = true →
    exec (.literal version true chunk) s =
      .next (decodeFailure .limitExceeded .value (s.pos + 11 + 5 * good.length + 5) s))

/-- A buffer that ends inside a Literal: InsufficientBits at the missing flag, or just after a flag whose chunk
does not fit (R101, R123). -/
def Obligations.TruncatedLiteralReportsItsField : Prop :=
  ∀ (s : State) (version : Version) (chunk : Nat) (good : List Nat) (tail : Bits),
    s.admits = true → s.pos + 11 ≤ s.buf.length → (∀ d ∈ good, d < 16) → tail.length < 5 →
    s.buf.drop (s.pos + 11) = good.flatMap (groupBits true) ++ tail →
    tooWide (valueOf 0 (chunk :: good)) s.cfg.valueBits = false →
    exec (.literal version true chunk) s =
      .next (decodeFailure .insufficientBits .none
        (s.pos + 11 + 5 * good.length + (if tail = [] then 0 else 1)) s)

/-! ### Operators -/

/-- A mode-0 header with a total above 0 opens a frame, with its children section starting at the next bit, for
each of the seven types (R73, R125, R127 to R133). -/
def Obligations.TotalHeaderOpensAFrame : Prop :=
  ∀ (s : State) (version : Version) (total : Nat), s.admits = true → 0 < total →
    exec (.sumT version total) s = .next (openedTotal .sum version total s) ∧
    exec (.productT version total) s = .next (openedTotal .product version total s) ∧
    exec (.minimumT version total) s = .next (openedTotal .minimum version total s) ∧
    exec (.maximumT version total) s = .next (openedTotal .maximum version total s) ∧
    exec (.greaterThanT version total) s = .next (openedTotal .greaterThan version total s) ∧
    exec (.lessThanT version total) s = .next (openedTotal .lessThan version total s) ∧
    exec (.equalToT version total) s = .next (openedTotal .equalTo version total s)

/-- A mode-1 header with a count above 0 opens a frame for that many children, for each of the seven types (R74,
R125, R127 to R133). -/
def Obligations.CountHeaderOpensAFrame : Prop :=
  ∀ (s : State) (version : Version) (count : Nat), s.admits = true → 0 < count →
    exec (.sumC version count) s = .next (openedCount .sum version count s) ∧
    exec (.productC version count) s = .next (openedCount .product version count s) ∧
    exec (.minimumC version count) s = .next (openedCount .minimum version count s) ∧
    exec (.maximumC version count) s = .next (openedCount .maximum version count s) ∧
    exec (.greaterThanC version count) s = .next (openedCount .greaterThan version count s) ∧
    exec (.lessThanC version count) s = .next (openedCount .lessThan version count s) ∧
    exec (.equalToC version count) s = .next (openedCount .equalTo version count s)

/-- Zero children: N = 0 or T = 0, for any of the seven types, is InvalidStructure directly after the length
field, 18 or 22 bits past the operator's first bit (R134). -/
def Obligations.ChildlessOperatorIsInvalid : Prop :=
  ∀ (s : State) (i : Instr) (version : Version), s.admits = true →
    (i ∈ [Instr.sumT version 0, .productT version 0, .minimumT version 0, .maximumT version 0,
        .greaterThanT version 0, .lessThanT version 0, .equalToT version 0] →
      exec i s = .next (decodeFailure .invalidStructure .none (s.pos + 22) s)) ∧
    (i ∈ [Instr.sumC version 0, .productC version 0, .minimumC version 0, .maximumC version 0,
        .greaterThanC version 0, .lessThanC version 0, .equalToC version 0] →
      exec i s = .next (decodeFailure .invalidStructure .none (s.pos + 18) s))

/-- What a completed packet p does (R125, R126, R134 to R136), POS standing at its end. With no frame open it
ends the decode. Otherwise the innermost frame takes it and either waits for another child, or has been
overshot, or is complete: then a comparison without two children is InvalidStructure, and any other operator
is built with its type, mode and children in order and is itself a completed packet one frame down. -/
def Obligations.CompletedPacketClosesItsFrames : Prop :=
  ∀ (s : State) (p : Packet),
    (s.frames = [] → State.deliver p s = decodeSuccess p s.pos s) ∧
    ∀ (f : Frame) (below : List Frame), s.frames = f :: below →
      (lacks f s.pos → State.deliver p s =
        { s with frames := ⟨f.version, f.type, f.framing, Packets.snoc f.children p⟩ :: below }) ∧
      (overshoots f s.pos → State.deliver p s = decodeFailure .framingMismatch .none s.pos s) ∧
      (completes f s.pos → comparison f.type = true → Packets.length f.children ≠ 1 →
        State.deliver p s = decodeFailure .invalidStructure .none s.pos s) ∧
      (completes f s.pos → (comparison f.type = true → Packets.length f.children = 1) →
        State.deliver p s =
          State.deliver (.op f.version f.type f.framing.mode (Packets.snoc f.children p))
            { s with frames := below })

/-- The last child of the outer operator builds the tree: a one-group LITERAL that completes the only open frame
delivers Op(version, type, mode, children) (R125, R127 to R133). -/
def Obligations.LastLiteralBuildsTheOperator : Prop :=
  ∀ (s : State) (version : Version) (chunk : Nat) (f : Frame),
    s.admits = true → s.frames = [f] → tooWide chunk s.cfg.valueBits = false → completes f (s.pos + 11) →
    (comparison f.type = true → Packets.length f.children = 1) →
    exec (.literal version false chunk) s =
      .next (decodeSuccess
        (.op f.version f.type f.framing.mode (Packets.snoc f.children (.lit version chunk))) (s.pos + 11) s)

/-! ### Whole decodes and whole commands -/

/-- The stepping core does what the spec's atomic commands do: from an idle core every command runs to the state
its rule gives, the decodes through the recursive `dec(1)` of R122 to R136 (R58, R100, R102, R103, R120,
R138, R160). -/
def Obligations.EveryCommandRunsToItsAtomicEffect : Prop :=
  ∀ (c : Command) (s : State), s.running = .idle →
    ∃ (k : Nat) (t : State), commandAtOnce c s = some t ∧ t.running = .idle ∧
      Host.Core.run Sys2Proof.core k { s with pending := .issue c :: s.pending } = .next t

/-- Every decode terminates, within a number of steps its unconsumed bits bound, from any state of a decode in
progress and under any ceilings (R137, R236). -/
def Obligations.DecodeEndsWithinItsBits : Prop :=
  ∀ s : State, s.running ≠ .idle →
    ∃ (k : Nat) (t : State), k ≤ s.remaining + 1 ∧ t.running = .idle ∧
      Host.Core.run Sys2Proof.core k s = .next t

/-- What a successful `dec` returns (R137, R140): it consumed at least 11 bits and none beyond the buffer, and the
packet is well formed, within VALUE_BITS, within MAX_DEPTH from where it was entered, and counted by NPKT. -/
def Obligations.DecodedPacketIsWithinItsBounds : Prop :=
  ∀ (cfg : Config) (buf : Bits) (fuel d pos npkt : Nat) (p : Packet) (pos' npkt' : Nat),
    dec cfg buf fuel d pos npkt = .done p pos' npkt' →
    pos + 11 ≤ pos' ∧ pos' ≤ buf.length ∧ wf p = true ∧ valuesFit cfg.valueBits p = true ∧
      npkt' = npkt + nodes p ∧ passes npkt' cfg.maxPackets = false ∧
      passes (d + depth p - 1) cfg.maxDepth = false

/-- A successful `dec` reads no bit at or beyond its packet's end (R137). -/
def Obligations.DecodeReadsNothingBeyondItsPacket : Prop :=
  ∀ (cfg : Config) (buf other : Bits) (fuel d pos npkt : Nat) (p : Packet) (pos' npkt' : Nat),
    dec cfg buf fuel d pos npkt = .done p pos' npkt' → other.take pos' = buf.take pos' →
    dec cfg other fuel d pos npkt = .done p pos' npkt'

/-- DECODEOUTER is LOADHEX, then DECODE, then the trailing-bit check (R90, R138): a failed load ends it, and
otherwise it ends as the recursive decoder does on the loaded buffer from bit 0. -/
def Obligations.DecodeOuterComposesLoadAndDecode : Prop :=
  ∀ (s : State) (text : List Char), s.running = .idle →
    ((loadHex text s).err ≠ .ok → commandAtOnce (.decodeOuter text) s = commandAtOnce (.loadHex text) s) ∧
    ((loadHex text s).err = .ok →
      let l := { loadHex text s with running := .decodeOuter }
      match dec l.cfg l.buf (l.buf.length + 1) 1 0 0 with
      | .done p pos _ => commandAtOnce (.decodeOuter text) s = some (decodeSuccess p pos l)
      | .raised e sub pos => commandAtOnce (.decodeOuter text) s = some (decodeFailure e sub pos l)
      | .exhausted => False)

/-- A decode's outcome depends on BUF, POS, the configuration and its own transient state only (R140): two states
that differ in the result registers step alike. -/
def Obligations.DecodeIgnoresTheResultRegisters : Prop :=
  ∀ (s : State) (ret : Nat) (tree : Option Packet) (out : Bits) (err : Err) (errSub : ErrSub) (errPos : Nat)
    (warn : Bool) (pending : List HostMove), s.running ≠ .idle →
    ∃ t u : State, step s = .next t ∧
      step { s with ret := ret, tree := tree, out := out, err := err, errSub := errSub, errPos := errPos,
                    warn := warn, pending := pending } = .next u ∧
      u.buf = t.buf ∧ u.pos = t.pos ∧ u.cfg = t.cfg ∧ u.npkt = t.npkt ∧ u.frames = t.frames ∧ u.acc = t.acc ∧
      u.running = t.running ∧
      (t.running = .idle →
        u.tree = t.tree ∧ u.err = t.err ∧ u.errSub = t.errSub ∧ u.errPos = t.errPos ∧
          (s.running = .decodeOuter → u.warn = t.warn))

/-! ### The invariant and reset -/

/-- Every step keeps the invariant of the core: the cursor's bounds, the buffers' form, the registers' ranges, and
that TREE and the decode in progress hold only well-formed packets within the ceilings (R27, R31, R32, R37,
R104, R140, R201, R203, R207). That the accumulated value between commands is 0 is the model's choice (log entry
15). -/
def Obligations.StepKeepsTheInvariant : Prop :=
  ∀ s t : State, Inv s → step s = .next t → Inv t

/-- Reset, of any instance and whatever the host has pending, meets the invariant (R41). The accumulated value 0 and
the host's list are the model's choices (log entries 15 and 2). -/
def Obligations.ResetMeetsTheInvariant : Prop :=
  Inv State.reset ∧ ∀ (cfg : Config) (pending : List HostMove), Inv (State.afterReset cfg pending)

/-- The reset values of R41, of State.reset and of the reset event on an idle core (R230); the configuration
stays the instance's. That State.reset has the default configuration of R6, and what becomes of the host's list, are
the model's choices (log entries 3, 2 and 19). -/
def Obligations.ResetLeavesTheStatedValues : Prop :=
  (State.reset.len = 0 ∧ State.reset.pos = 0 ∧ State.reset.ret = 0 ∧ State.reset.tree = none ∧
    State.reset.outLen = 0 ∧ State.reset.err = .ok ∧ State.reset.errSub = .none ∧ State.reset.errPos = 0 ∧
    State.reset.warn = false ∧ State.reset.frames = [] ∧ State.reset.npkt = 0) ∧
  ∀ (s : State) (rest : List HostMove), s.running = .idle → s.pending = .reset :: rest →
    ∃ t, step s = .next t ∧ t.buf = [] ∧ t.pos = 0 ∧ t.ret = 0 ∧ t.tree = none ∧ t.out = [] ∧ t.err = .ok ∧
      t.errSub = .none ∧ t.errPos = 0 ∧ t.warn = false ∧ t.frames = [] ∧ t.npkt = 0 ∧ t.running = .idle ∧
      t.cfg = s.cfg ∧ t.pending = rest

/-- An idle core with no host move pending holds its registers (R217, R230; the list of host moves is the model's
own, log entry 2). -/
def Obligations.IdleCoreHoldsItsRegisters : Prop :=
  ∀ s : State, s.running = .idle → s.pending = [] → step s = .next s

/-- An idle core takes the host's next move off the list and has that command's effect, in the order issued (R58,
R240). That the host's moves are a list in State is the model's choice (log entry 2). -/
def Obligations.IdleCoreServesTheNextCommand : Prop :=
  ∀ (s : State) (c : Command) (rest : List HostMove), s.running = .idle → s.pending = .issue c :: rest →
    step s = .next (command c { s with pending := rest }) ∧
      (command c { s with pending := rest }).pending = rest

/-! ### The cursor's commands -/

/-- LOADHEX of at most MAX_BITS/4 hex digits replaces the cursor: digit k fills bits 4k to 4k+3, most significant
first, and TREE and WARN are cleared (R51, R100). -/
def Obligations.LoadHexFillsTheCursor : Prop :=
  ∀ (s : State) (text : List Char) (rest : List HostMove),
    s.running = .idle → s.pending = .issue (.loadHex text) :: rest →
    (∀ c ∈ text, hexval c ≠ none) → 4 * text.length ≤ s.cfg.maxBits →
    step s = .next { s with
      buf := text.flatMap (fun c => bitsOf ((hexval c).getD 0) 4), pos := 0, tree := none, warn := false,
      err := .ok, errSub := .none, errPos := 0, pending := rest }

/-- LOADHEX scans front to back (R100, R205 a): the first character beyond the capacity is
LimitExceeded(BUFFER), the first one that is no hex digit is MalformedInput, and either leaves an empty
cursor. -/
def Obligations.LoadHexReportsTheFirstError : Prop :=
  ∀ (s : State) (before after : List Char) (c : Char) (rest : List HostMove),
    s.running = .idle → s.pending = .issue (.loadHex (before ++ c :: after)) :: rest →
    (∀ x ∈ before, hexval x ≠ none) → 4 * before.length ≤ s.cfg.maxBits →
    (s.cfg.maxBits < 4 * (before.length + 1) →
      step s = .next (loadFailure .limitExceeded .buffer { s with pending := rest })) ∧
    (4 * (before.length + 1) ≤ s.cfg.maxBits → hexval c = none →
      step s = .next (loadFailure .malformedInput .none { s with pending := rest }))

/-- POP n (R102): first the operand's range, then the bits that remain, then the value of the next n bits; on a failure
nothing but the error registers changes. -/
def Obligations.PopReadsOrRefuses : Prop :=
  ∀ (s : State) (n : Nat),
    (n < 1 ∨ s.cfg.popMax < n →
      command (.pop n) s = { s with err := .illegalOperand, errSub := .none, errPos := s.pos }) ∧
    (1 ≤ n → n ≤ s.cfg.popMax → s.buf.length - s.pos < n →
      command (.pop n) s = { s with err := .insufficientBits, errSub := .none, errPos := s.pos }) ∧
    (1 ≤ n → n ≤ s.cfg.popMax → n ≤ s.buf.length - s.pos →
      command (.pop n) s = { s with
        ret := val ((s.buf.drop s.pos).take n), pos := s.pos + n, err := .ok, errSub := .none, errPos := 0 })

/-- A popped value fits its width, and it is read most significant bit first (R50, R101). -/
def Obligations.PoppedValueFitsItsWidth : Prop :=
  ∀ (n : Nat) (s t : State) (v : Nat), s.popBits n = some (v, t) →
    v < 2 ^ n ∧ bitsOf v n = (s.buf.drop s.pos).take n ∧ t = { s with pos := s.pos + n }

/-- REMAINING (R103): RET gets LEN - POS, the error registers say OK, and nothing else changes. -/
def Obligations.RemainingReportsTheUnconsumedBits : Prop :=
  ∀ s : State, command .remaining s =
    { s with ret := s.buf.length - s.pos, err := .ok, errSub := .none, errPos := 0 }

/-- The byte view (R52): bit address a is bit 7 - (a mod 8) of byte a // 8, in the last byte of an odd number of
digits too; no other bit of a byte is defined. A byte whose eight bits are defined has the value in which bit j weighs
2^j, and wherever the first four are, the high nibble has theirs. -/
def Obligations.ByteViewNumbersTheBits : Prop :=
  ∀ b : Bits,
    (∀ a x, byteBit b (a / 8) (7 - a % 8) = some x ↔ bitAt b a = some x) ∧
    (∀ k j, (byteBit b k j).isSome = true ↔ j < 8 ∧ 8 * k + (7 - j) < b.length) ∧
    (∀ k n, byteView b k = some n → n < 256 ∧ ∀ j, j < 8 → byteBit b k j = some (n.testBit j)) ∧
    (∀ k n, highNibble b k = some n → n < 16 ∧ ∀ j, j < 4 → byteBit b k (j + 4) = some (n.testBit j)) ∧
    (∀ k, (byteView b k).isSome = true ↔ 8 * k + 8 ≤ b.length) ∧
    ∀ k, (highNibble b k).isSome = true ↔ 8 * k + 4 ≤ b.length

/-- The trailing-bit check (R139): it is set exactly when four or more bits are left or one of them is 1. -/
def Obligations.TrailingWarningMeansLongOrNonzero : Prop :=
  ∀ s : State, trailingWarn s = true ↔
    4 ≤ s.buf.length - s.pos ∨ ∃ a, s.pos ≤ a ∧ a < s.buf.length ∧ bitAt s.buf a = some true

/-! ### The encoder -/

/-- ENCODE of a packet that validation, the fields and the capacity admit: OUT is its encoding and zero bits up
to a byte; the cursor, TREE, RET and WARN stay (R160, R166). -/
def Obligations.EncodeFillsTheOutput : Prop :=
  ∀ (s : State) (p : Packet) (rest : List HostMove) (n : Nat) (b : Bits),
    s.running = .idle → s.pending = .issue (.encode p) :: rest →
    validate s.cfg p 1 0 = .ok n → enc s.cfg.encPolicy p = .ok b →
    b.length + (8 - b.length % 8) % 8 ≤ s.cfg.maxBits →
    step s = .next { s with
      out := b ++ List.replicate ((8 - b.length % 8) % 8) false, err := .ok, errSub := .none, errPos := 0,
      pending := rest }

/-- The order of ENCODE's errors (R167): validation, then the length fields, then the capacity; each leaves OUT
empty and nothing else changed but the error registers (R206). -/
def Obligations.EncodeReportsErrorsInOrder : Prop :=
  ∀ (s : State) (p : Packet) (rest : List HostMove), s.running = .idle → s.pending = .issue (.encode p) :: rest →
    (∀ e sub, validate s.cfg p 1 0 = .error (e, sub) →
      step s = .next (encodeFailure e sub { s with pending := rest })) ∧
    (∀ n e sub, validate s.cfg p 1 0 = .ok n → enc s.cfg.encPolicy p = .error (e, sub) →
      step s = .next (encodeFailure e sub { s with pending := rest })) ∧
    (∀ n b, validate s.cfg p 1 0 = .ok n → enc s.cfg.encPolicy p = .ok b →
      s.cfg.maxBits < b.length + (8 - b.length % 8) % 8 →
      step s = .next (encodeFailure .limitExceeded .buffer { s with pending := rest }))

/-- Validation admits exactly the well-formed trees within the ceilings (R25, R161). -/
def Obligations.ValidationAdmitsTheFittingTrees : Prop :=
  ∀ (cfg : Config) (p : Packet), (∃ n, validate cfg p 1 0 = .ok n) ↔ treeFits cfg p = true

/-- The digits of R79: base-16 digits of the value with no leading zero digit, `[0]` for 0, and
`max(1, ceil(bitlength/4))` of them. -/
def Obligations.DigitsAreMinimal : Prop :=
  ∀ value : Nat, valueOf 0 (digits value) = value ∧ (∀ d ∈ digits value, d < 16) ∧
    (value ≠ 0 → (digits value).head? ≠ some 0) ∧ digits 0 = [0] ∧
    (digits value).length = max 1 (((if value = 0 then 0 else Nat.log2 value + 1) + 3) / 4)

/-- An encoding is as long as R77 says, its children's bare lengths and its own header, under either policy's
effective modes. -/
def Obligations.EncodingHasThePacketsLength : Prop :=
  ∀ (p : Packet) (b : Bits),
    (enc .retain p = .ok b → b.length = plen p) ∧
    (enc .forceCount p = .ok b → modesAre .immediateCount p = true → b.length = plen p)

/-- Padding (R166): zero bits only, fewer than 8 of them, up to a multiple of 8. -/
def Obligations.PaddingReachesTheNextByte : Prop :=
  ∀ b : Bits, ∃ k, padded b = b ++ List.replicate k false ∧ k < 8 ∧ (padded b).length % 8 = 0 ∧
    ∀ m, b.length ≤ m → m % 8 = 0 → (padded b).length ≤ m

/-- The round trip of R168 (a), (b): what ENCODE accepts, DECODEOUTER of its output in hex text decodes: to the
same tree under RETAIN, to a semantically equal one with every mode 1 under FORCE_COUNT; POS is the length of
the bare encoding, and WARN tells whether four or more bits were padded. -/
def Obligations.EncodeThenDecodeOuterRoundTrips : Prop :=
  ∀ (s : State) (p : Packet) (b : Bits), s.running = .idle →
    (encodeCommand p s).err = .ok → enc s.cfg.encPolicy p = .ok b →
    ∃ (u : State) (q : Packet),
      commandAtOnce (.decodeOuter (toHex (encodeCommand p s).out)) (encodeCommand p s) = some u ∧
      u.err = .ok ∧ u.tree = some q ∧ u.pos = b.length ∧ u.len = (encodeCommand p s).outLen ∧
      u.warn = decide (4 ≤ (8 - b.length % 8) % 8) ∧ semEq q p = true ∧
      (s.cfg.encPolicy = .retain → q = p) ∧
      (s.cfg.encPolicy = .forceCount → modesAre .immediateCount q = true)

/-- The other direction, R168 (d) by lengths: a decoded packet always encodes under RETAIN, never to more bits
than were consumed, and to exactly the bits consumed when it is not shorter. -/
def Obligations.DecodedPacketEncodesToItsBits : Prop :=
  ∀ (cfg : Config) (buf : Bits) (fuel d pos npkt : Nat) (p : Packet) (pos' npkt' : Nat),
    dec cfg buf fuel d pos npkt = .done p pos' npkt' →
    ∃ b, enc .retain p = .ok b ∧ b.length ≤ pos' - pos ∧
      (b.length = pos' - pos → b = (buf.drop pos).take (pos' - pos))

/-! ### The companions -/

/-- `evaluate` and `versionSum` do not read `mode`: they agree on semantically equal packets, errors included
(R24, R186). -/
def Obligations.CompanionsRespectSemanticEquality : Prop :=
  ∀ p q : Packet, semEq p q = true → evaluate p = evaluate q ∧ versionSum p = versionSum q

/-- `evaluate` is total on well-formed trees (R180), and an operator `checkArity` refuses has no value (R181). -/
def Obligations.EvaluateIsTotalOnWellFormedTrees : Prop :=
  (∀ p : Packet, wf p = true → ∃ n, evaluate p = .value n) ∧
  ∀ (v : Version) (t : PacketType) (m : LengthMode) (cs : Packets), t ≠ .literal →
    (Packets.length cs = 0 ∨ comparison t = true ∧ Packets.length cs ≠ 2) →
    evaluate (.op v t m cs) = .arityError

/-- The three comparisons answer 1 or 0 by the first child's value against the second's (R183), whatever the version
and the mode. -/
def Obligations.EvaluateComparesInWireOrder : Prop :=
  ∀ (v : Version) (m : LengthMode) (a b : Packet) (x y : Nat), evaluate a = .value x → evaluate b = .value y →
    evaluate (.op v .greaterThan m (.cons a (.cons b .nil))) = .value (if x > y then 1 else 0) ∧
    evaluate (.op v .lessThan m (.cons a (.cons b .nil))) = .value (if x < y then 1 else 0) ∧
    evaluate (.op v .equalTo m (.cons a (.cons b .nil))) = .value (if x = y then 1 else 0)

/-- SUM, PRODUCT, MINIMUM and MAXIMUM of the children's values (R182); with one child each is that child's value. -/
def Obligations.EvaluateFoldsTheChildren : Prop :=
  ∀ (v : Version) (m : LengthMode) (cs : Packets) (xs : List Nat), evaluateAll cs = .ok xs → xs ≠ [] →
    evaluate (.op v .sum m cs) = .value xs.sum ∧
    evaluate (.op v .product m cs) = .value xs.prod ∧
    (∃ n, evaluate (.op v .minimum m cs) = .value n ∧ n ∈ xs ∧ ∀ x ∈ xs, n ≤ x) ∧
    (∃ n, evaluate (.op v .maximum m cs) = .value n ∧ n ∈ xs ∧ ∀ x ∈ xs, x ≤ n) ∧
    ∀ t ∈ [PacketType.sum, .product, .minimum, .maximum], ∀ x, xs = [x] → evaluate (.op v t m cs) = .value x

/-! ### Rules of the whole machine -/

/-- The write table of R40 for BUF, OUT, RET and the configuration: only the commands it names, or reset, change
them (R28, R34, R36, R62). -/
def Obligations.OnlyTheNamedCommandsWriteTheBuffers : Prop :=
  ∀ s t : State, step s = .next t →
    t.cfg = s.cfg ∧
    (t.buf ≠ s.buf → s.running = .idle ∧ ∃ rest,
      (∃ text, s.pending = .issue (.loadHex text) :: rest) ∨
      (∃ text, s.pending = .issue (.decodeOuter text) :: rest) ∨ s.pending = .reset :: rest) ∧
    (t.out ≠ s.out → s.running = .idle ∧ ∃ rest,
      (∃ p, s.pending = .issue (.encode p) :: rest) ∨ s.pending = .reset :: rest) ∧
    (t.ret ≠ s.ret → s.running = .idle ∧ ∃ rest,
      (∃ n, s.pending = .issue (.pop n) :: rest) ∨ s.pending = .issue .remaining :: rest ∨
      s.pending = .reset :: rest)

/-- POS moves back only when a new buffer is loaded or at reset, and then to 0 (R28, R104, R234). -/
def Obligations.PosMovesBackOnlyAtALoad : Prop :=
  ∀ s t : State, step s = .next t → t.pos < s.pos →
    t.pos = 0 ∧ s.running = .idle ∧ ∃ rest,
      (∃ text, s.pending = .issue (.loadHex text) :: rest) ∨
      (∃ text, s.pending = .issue (.decodeOuter text) :: rest) ∨ s.pending = .reset :: rest

/-- WARN rises only when a DECODEOUTER has decoded its outer packet and its leftover bits are not zero-padding
shorter than 4 bits (R30, R139, R204). -/
def Obligations.WarnRisesOnlyAfterAnOuterDecode : Prop :=
  ∀ s t : State, step s = .next t → s.warn = false → t.warn = true →
    s.running = .decodeOuter ∧ t.running = .idle ∧ t.err = .ok ∧ t.tree ≠ none ∧
      (4 ≤ t.buf.length - t.pos ∨ ∃ a, t.pos ≤ a ∧ a < t.buf.length ∧ bitAt t.buf a = some true)

/-- Which command can leave which error (R202): after a command, ERR is OK or an error of its column, with its
sub-cause. REMAINING never fails. -/
def Obligations.CommandsRaiseOnlyTheirErrors : Prop :=
  ∀ (c : Command) (s t : State), s.running = .idle → commandAtOnce c s = some t →
    (t.err, t.errSub) ∈ (Err.ok, ErrSub.none) :: mayRaise c
end

