-- ==== Sys2Proof/Laws/Bits.lean ====
section
/-! SUPPORT. Bit sequences and numbers: `val` and `bitsOf` are inverse on n bits (R9), and one field read from the
front of a sequence (R76). -/

namespace Sys2Proof

@[simp] theorem val_nil : val [] = 0 := rfl

theorem foldl_val (b : Bits) (acc : Nat) :
    b.foldl (fun acc bit => 2 * acc + bit.toNat) acc = acc * 2 ^ b.length + val b := by
  induction b generalizing acc with
  | nil => simp
  | cons x xs ih =>
    simp only [List.foldl_cons, val, List.length_cons]
    rw [ih, ih (2 * 0 + x.toNat)]
    ring

theorem val_cons (x : Bool) (xs : Bits) : val (x :: xs) = x.toNat * 2 ^ xs.length + val xs := by
  rw [val, List.foldl_cons, foldl_val]; simp

theorem val_append (a b : Bits) : val (a ++ b) = val a * 2 ^ b.length + val b := by
  rw [val, List.foldl_append, foldl_val]; rfl

theorem val_lt (b : Bits) : val b < 2 ^ b.length := by
  induction b with
  | nil => simp
  | cons x xs ih =>
    rw [val_cons, List.length_cons, pow_succ]
    cases x <;> simp <;> omega

@[simp] theorem length_bitsOf (v n : Nat) : (bitsOf v n).length = n := by
  induction n with
  | zero => rfl
  | succ n ih => simp [bitsOf, ih]

/-- `bits(v, n)` holds v modulo 2^n. -/
theorem val_bitsOf_mod (v n : Nat) : val (bitsOf v n) = v % 2 ^ n := by
  induction n with
  | zero => simp [bitsOf, Nat.mod_one]
  | succ n ih =>
    rw [bitsOf, val_cons, length_bitsOf, ih, Nat.mod_pow_succ, Nat.testBit_eq_decide_div_mod_eq]
    have h : v / 2 ^ n % 2 < 2 := Nat.mod_lt _ (by decide)
    rcases Nat.lt_succ_iff_lt_or_eq.mp h with h0 | h1
    · simp [show v / 2 ^ n % 2 = 0 by omega]
    · simp [h1]; ring

theorem val_bitsOf {v n : Nat} (h : v < 2 ^ n) : val (bitsOf v n) = v := by
  rw [val_bitsOf_mod, Nat.mod_eq_of_lt h]

theorem bitsOf_mod (v n : Nat) : bitsOf (v % 2 ^ n) n = bitsOf v n := by
  suffices h : ∀ k, k ≤ n → bitsOf (v % 2 ^ n) k = bitsOf v k from h n le_rfl
  intro k hk
  induction k with
  | zero => rfl
  | succ k ih =>
    rw [bitsOf, bitsOf, ih (by omega), Nat.testBit_mod_two_pow]
    simp [show k < n by omega]

/-- The other direction: a sequence is the bits of its value. -/
theorem bitsOf_val (b : Bits) : bitsOf (val b) b.length = b := by
  induction b with
  | nil => rfl
  | cons x xs ih =>
    have hlt := val_lt xs
    rw [List.length_cons, bitsOf, val_cons]
    congr 1
    · rw [Nat.testBit_eq_decide_div_mod_eq, Nat.add_comm, Nat.add_mul_div_right _ _ (by positivity),
        Nat.div_eq_of_lt hlt]
      cases x <;> simp
    · rw [← bitsOf_mod, Nat.add_comm, Nat.add_mul_mod_self_right, Nat.mod_eq_of_lt hlt, ih]

/-- The one thing `field` can do: it answers the first n bits' value and the bits after them, or the sequence is
shorter than n. -/
theorem field_eq_some {n : Nat} {b rest : Bits} {v : Nat} :
    field n b = some (v, rest) ↔ v < 2 ^ n ∧ b = bitsOf v n ++ rest := by
  unfold field
  split
  · rename_i h
    simp only [reduceCtorEq, false_iff, not_and]
    rintro - rfl
    simp at h
  · rename_i h
    have hl : (b.take n).length = n := by simp; omega
    simp only [Option.some.injEq, Prod.mk.injEq]
    constructor
    · rintro ⟨rfl, rfl⟩
      refine ⟨by simpa [hl] using val_lt (b.take n), ?_⟩
      conv_lhs => rw [← List.take_append_drop n b, ← bitsOf_val (b.take n), hl]
    · rintro ⟨hv, rfl⟩
      simp [val_bitsOf hv]

theorem field_bitsOf_append {v n : Nat} (h : v < 2 ^ n) (rest : Bits) :
    field n (bitsOf v n ++ rest) = some (v, rest) :=
  field_eq_some.mpr ⟨h, rfl⟩

theorem field_eq_none {n : Nat} {b : Bits} : field n b = none ↔ b.length < n := by
  unfold field
  split <;> simp_all

@[simp] theorem ofCode_code (t : PacketType) : PacketType.ofCode (Fin.ofNat 8 t.code) = t := by
  cases t <;> rfl

theorem code_lt (t : PacketType) : t.code < 2 ^ 3 := by
  cases t <;> decide

theorem code_ofCode (n : Nat) (h : n < 8) : (PacketType.ofCode (Fin.ofNat 8 n)).code = n := by
  have : ∀ c : Fin 8, (PacketType.ofCode c).code = c.val := by decide
  rw [this]; simp [Fin.ofNat, Nat.mod_eq_of_lt h]

end Sys2Proof
end

