-- ==== Sys2Proof/Laws/State.lean ====
section
/-! SUPPORT. One lemma per field per named update of the state, so that no later proof unfolds a record
update. -/

namespace Sys2Proof.Machine

@[simp] theorem State.advance_buf (n : Nat) (s : State) : (s.advance n).buf = s.buf := rfl
@[simp] theorem State.advance_pos (n : Nat) (s : State) : (s.advance n).pos = s.pos + n := rfl
@[simp] theorem State.advance_ret (n : Nat) (s : State) : (s.advance n).ret = s.ret := rfl
@[simp] theorem State.advance_tree (n : Nat) (s : State) : (s.advance n).tree = s.tree := rfl
@[simp] theorem State.advance_out (n : Nat) (s : State) : (s.advance n).out = s.out := rfl
@[simp] theorem State.advance_err (n : Nat) (s : State) : (s.advance n).err = s.err := rfl
@[simp] theorem State.advance_errSub (n : Nat) (s : State) : (s.advance n).errSub = s.errSub := rfl
@[simp] theorem State.advance_errPos (n : Nat) (s : State) : (s.advance n).errPos = s.errPos := rfl
@[simp] theorem State.advance_warn (n : Nat) (s : State) : (s.advance n).warn = s.warn := rfl
@[simp] theorem State.advance_npkt (n : Nat) (s : State) : (s.advance n).npkt = s.npkt := rfl
@[simp] theorem State.advance_frames (n : Nat) (s : State) : (s.advance n).frames = s.frames := rfl
@[simp] theorem State.advance_acc (n : Nat) (s : State) : (s.advance n).acc = s.acc := rfl
@[simp] theorem State.advance_running (n : Nat) (s : State) : (s.advance n).running = s.running := rfl
@[simp] theorem State.advance_cfg (n : Nat) (s : State) : (s.advance n).cfg = s.cfg := rfl
@[simp] theorem State.advance_pending (n : Nat) (s : State) : (s.advance n).pending = s.pending := rfl

@[simp] theorem State.discard_buf (s : State) : (s.discard).buf = s.buf := rfl
@[simp] theorem State.discard_pos (s : State) : (s.discard).pos = s.pos := rfl
@[simp] theorem State.discard_ret (s : State) : (s.discard).ret = s.ret := rfl
@[simp] theorem State.discard_tree (s : State) : (s.discard).tree = s.tree := rfl
@[simp] theorem State.discard_out (s : State) : (s.discard).out = s.out := rfl
@[simp] theorem State.discard_err (s : State) : (s.discard).err = s.err := rfl
@[simp] theorem State.discard_errSub (s : State) : (s.discard).errSub = s.errSub := rfl
@[simp] theorem State.discard_errPos (s : State) : (s.discard).errPos = s.errPos := rfl
@[simp] theorem State.discard_warn (s : State) : (s.discard).warn = s.warn := rfl
@[simp] theorem State.discard_npkt (s : State) : (s.discard).npkt = 0 := rfl
@[simp] theorem State.discard_frames (s : State) : (s.discard).frames = [] := rfl
@[simp] theorem State.discard_acc (s : State) : (s.discard).acc = 0 := rfl
@[simp] theorem State.discard_running (s : State) : (s.discard).running = .idle := rfl
@[simp] theorem State.discard_cfg (s : State) : (s.discard).cfg = s.cfg := rfl
@[simp] theorem State.discard_pending (s : State) : (s.discard).pending = s.pending := rfl

@[simp] theorem State.succeed_buf (s : State) : (s.succeed).buf = s.buf := rfl
@[simp] theorem State.succeed_pos (s : State) : (s.succeed).pos = s.pos := rfl
@[simp] theorem State.succeed_ret (s : State) : (s.succeed).ret = s.ret := rfl
@[simp] theorem State.succeed_tree (s : State) : (s.succeed).tree = s.tree := rfl
@[simp] theorem State.succeed_out (s : State) : (s.succeed).out = s.out := rfl
@[simp] theorem State.succeed_err (s : State) : (s.succeed).err = .ok := rfl
@[simp] theorem State.succeed_errSub (s : State) : (s.succeed).errSub = .none := rfl
@[simp] theorem State.succeed_errPos (s : State) : (s.succeed).errPos = 0 := rfl
@[simp] theorem State.succeed_warn (s : State) : (s.succeed).warn = s.warn := rfl
@[simp] theorem State.succeed_npkt (s : State) : (s.succeed).npkt = s.npkt := rfl
@[simp] theorem State.succeed_frames (s : State) : (s.succeed).frames = s.frames := rfl
@[simp] theorem State.succeed_acc (s : State) : (s.succeed).acc = s.acc := rfl
@[simp] theorem State.succeed_running (s : State) : (s.succeed).running = s.running := rfl
@[simp] theorem State.succeed_cfg (s : State) : (s.succeed).cfg = s.cfg := rfl
@[simp] theorem State.succeed_pending (s : State) : (s.succeed).pending = s.pending := rfl

@[simp] theorem State.beginDecode_buf (r : Running) (s : State) : (s.beginDecode r).buf = s.buf := rfl
@[simp] theorem State.beginDecode_pos (r : Running) (s : State) : (s.beginDecode r).pos = s.pos := rfl
@[simp] theorem State.beginDecode_ret (r : Running) (s : State) : (s.beginDecode r).ret = s.ret := rfl
@[simp] theorem State.beginDecode_tree (r : Running) (s : State) : (s.beginDecode r).tree = s.tree := rfl
@[simp] theorem State.beginDecode_out (r : Running) (s : State) : (s.beginDecode r).out = s.out := rfl
@[simp] theorem State.beginDecode_err (r : Running) (s : State) : (s.beginDecode r).err = s.err := rfl
@[simp] theorem State.beginDecode_errSub (r : Running) (s : State) : (s.beginDecode r).errSub = s.errSub := rfl
@[simp] theorem State.beginDecode_errPos (r : Running) (s : State) : (s.beginDecode r).errPos = s.errPos := rfl
@[simp] theorem State.beginDecode_warn (r : Running) (s : State) : (s.beginDecode r).warn = s.warn := rfl
@[simp] theorem State.beginDecode_npkt (r : Running) (s : State) : (s.beginDecode r).npkt = 0 := rfl
@[simp] theorem State.beginDecode_frames (r : Running) (s : State) : (s.beginDecode r).frames = [] := rfl
@[simp] theorem State.beginDecode_acc (r : Running) (s : State) : (s.beginDecode r).acc = 0 := rfl
@[simp] theorem State.beginDecode_running (r : Running) (s : State) : (s.beginDecode r).running = r := rfl
@[simp] theorem State.beginDecode_cfg (r : Running) (s : State) : (s.beginDecode r).cfg = s.cfg := rfl
@[simp] theorem State.beginDecode_pending (r : Running) (s : State) : (s.beginDecode r).pending = s.pending := rfl

end Sys2Proof.Machine
end

