-- ==== Sys2Proof/Laws/Ops.lean ====
section
/-! SUPPORT. What each shared operation over the state can do, said once. -/

namespace Sys2Proof.Machine

/-- `pop(n)` fails exactly when fewer than n bits remain (R101). -/
theorem popBits_eq_none {n : Nat} {s : State} : s.popBits n = none ↔ s.remaining < n := by
  unfold State.popBits
  split <;> simp_all

/-- `pop(n)` answers the value of the next n bits and moves POS past them (R101). -/
theorem popBits_eq_some {n v : Nat} {s t : State} :
    s.popBits n = some (v, t) ↔ n ≤ s.remaining ∧ v = memRead s.buf s.pos n ∧ t = s.advance n := by
  unfold State.popBits
  split
  · rename_i h; simp; omega
  · rename_i h
    simp only [Option.some.injEq, Prod.mk.injEq]
    constructor
    · rintro ⟨rfl, rfl⟩; exact ⟨by omega, rfl, rfl⟩
    · rintro ⟨-, rfl, rfl⟩; exact ⟨rfl, rfl⟩

/-- The error entry of R206 for a decode, as the table has it. -/
theorem takeError_decode (e : Err) (sub : ErrSub) (s : State) :
    s.takeError .decode e sub = decodeFailure e sub s.pos s := rfl

/-- The error entry of R206 for a load. -/
theorem takeError_load (e : Err) (sub : ErrSub) (s : State) :
    s.takeError .load e sub = loadFailure e sub s := rfl

/-- The error entry of R206 for ENCODE. -/
theorem takeError_encode (e : Err) (sub : ErrSub) (s : State) :
    s.takeError .encode e sub = encodeFailure e sub s := rfl

/-- The end of a successful decode (R120, R138, R139). -/
theorem finishDecode_eq (p : Packet) (s : State) : s.finishDecode p = decodeSuccess p s.pos s := rfl

/-- Everything `entry` can answer (R121). -/
theorem entry_cases (cfg : Config) (d npkt : Nat) :
    (passes d cfg.maxDepth = true ∧ entry cfg d npkt = .error (.limitExceeded, .depth)) ∨
    (passes d cfg.maxDepth = false ∧ passes (npkt + 1) cfg.maxPackets = true ∧
      entry cfg d npkt = .error (.limitExceeded, .packets)) ∨
    (passes d cfg.maxDepth = false ∧ passes (npkt + 1) cfg.maxPackets = false ∧
      entry cfg d npkt = .ok (npkt + 1)) := by
  unfold entry
  cases passes d cfg.maxDepth <;> cases passes (npkt + 1) cfg.maxPackets <;> simp

/-- Everything entering a packet can do (R121). -/
theorem enter_cases (body : State → State) (s : State) :
    (passes s.depth s.cfg.maxDepth = true ∧
      s.enter body = decodeFailure .limitExceeded .depth s.pos s) ∨
    (passes s.depth s.cfg.maxDepth = false ∧ passes (s.npkt + 1) s.cfg.maxPackets = true ∧
      s.enter body = decodeFailure .limitExceeded .packets s.pos s) ∨
    (s.admits = true ∧ s.enter body = body { s with npkt := s.npkt + 1 }) := by
  unfold State.enter State.admits
  rcases entry_cases s.cfg s.depth s.npkt with ⟨h, e⟩ | ⟨h, h', e⟩ | ⟨h, h', e⟩ <;> rw [e]
  · exact .inl ⟨h, rfl⟩
  · exact .inr (.inl ⟨h, h', rfl⟩)
  · exact .inr (.inr ⟨by simp [h, h'], rfl⟩)

/-- Entering an admitted packet runs the body. -/
theorem enter_of_admits {body : State → State} {s : State} (h : s.admits = true) :
    s.enter body = body { s with npkt := s.npkt + 1 } := by
  unfold State.admits at h
  simp only [Bool.and_eq_true, Bool.not_eq_true'] at h
  rcases enter_cases body s with ⟨h', -⟩ | ⟨-, h', -⟩ | ⟨-, e⟩
  · simp [h.1] at h'
  · simp [h.2] at h'
  · exact e

/-- Everything `byteBit` can answer: a bit of the buffer at its address, or none (R52). -/
theorem byteBit_eq_some {b : Bits} {k j : Nat} {x : Bool} :
    byteBit b k j = some x ↔ j < 8 ∧ b[8 * k + (7 - j)]? = some x := by
  unfold byteBit bitAt
  split <;> simp_all

/-- Everything `highNibble` can answer (R52). -/
theorem highNibble_eq_some {b : Bits} {k n : Nat} :
    highNibble b k = some n ↔ 8 * k + 4 ≤ b.length ∧ n = memRead b (8 * k) 4 := by
  unfold highNibble
  split <;> simp only [Option.some.injEq, reduceCtorEq, false_iff, not_and, eq_comm (a := n)] <;> omega

/-- Everything `byteView` can answer (R52). -/
theorem byteView_eq_some {b : Bits} {k n : Nat} :
    byteView b k = some n ↔ 8 * k + 8 ≤ b.length ∧ n = memRead b (8 * k) 8 := by
  unfold byteView
  split <;> simp only [Option.some.injEq, reduceCtorEq, false_iff, not_and, eq_comm (a := n)] <;> omega

end Sys2Proof.Machine
end

