-- ==== Sys2Proof/Laws/Packets.lean ====
section
/-! SUPPORT. The measures and checks on a list of children after one more child (R26, R125), and the facts every
tree meets. -/

namespace Sys2Proof.Machine

@[simp] theorem length_snoc (cs : Packets) (p : Packet) :
    Packets.length (Packets.snoc cs p) = Packets.length cs + 1 := by
  induction cs using Packets.rec (motive_1 := fun _ => True) <;> simp_all [Packets.snoc, Packets.length]

@[simp] theorem wfAll_snoc (cs : Packets) (p : Packet) : wfAll (Packets.snoc cs p) = (wfAll cs && wf p) := by
  induction cs using Packets.rec (motive_1 := fun _ => True) <;>
    simp_all [Packets.snoc, wfAll, Bool.and_assoc]

@[simp] theorem nodesAll_snoc (cs : Packets) (p : Packet) :
    nodesAll (Packets.snoc cs p) = nodesAll cs + nodes p := by
  induction cs using Packets.rec (motive_1 := fun _ => True) <;>
    simp_all [Packets.snoc, nodesAll, Nat.add_assoc]

@[simp] theorem depthAll_snoc (cs : Packets) (p : Packet) :
    depthAll (Packets.snoc cs p) = max (depthAll cs) (depth p) := by
  induction cs using Packets.rec (motive_1 := fun _ => True) <;>
    simp_all [Packets.snoc, depthAll, Nat.max_assoc]

@[simp] theorem valuesFitAll_snoc (c : Ceiling) (cs : Packets) (p : Packet) :
    valuesFitAll c (Packets.snoc cs p) = (valuesFitAll c cs && valuesFit c p) := by
  induction cs using Packets.rec (motive_1 := fun _ => True) <;>
    simp_all [Packets.snoc, valuesFitAll, Bool.and_assoc]

/-- Every tree has at least one node. -/
theorem one_le_nodes (p : Packet) : 1 ≤ nodes p := by
  cases p <;> simp [nodes]

/-- Every tree is at least one level deep. -/
theorem one_le_depth (p : Packet) : 1 ≤ depth p := by
  cases p <;> simp [depth]

/-- No packet encodes to fewer than 11 bits (R77). -/
theorem eleven_le_plen_lit (v : Version) (value : Nat) (h : digits value ≠ []) : 11 ≤ plen (.lit v value) := by
  have := List.length_pos_iff.mpr h
  simp only [plen]; omega

/-- A ceiling that n does not pass, no smaller number passes. -/
theorem passes_mono {m n : Nat} {c : Ceiling} (h : m ≤ n) (hn : passes n c = false) : passes m c = false := by
  cases c with
  | inf => rfl
  | limit k => simp [passes] at *; omega

/-- A value within VALUE_BITS, every smaller value is within too. -/
theorem tooWide_mono {m n : Nat} {c : Ceiling} (h : m ≤ n) (hn : tooWide n c = false) : tooWide m c = false := by
  cases c with
  | inf => rfl
  | limit k => simp [tooWide] at *; omega

/-- Accumulating chunks never makes the value smaller (R78). -/
theorem le_valueOf (start : Nat) (ds : List Nat) : start ≤ valueOf start ds := by
  induction ds generalizing start with
  | nil => exact le_rfl
  | cons d ds ih => exact le_trans (by omega) (ih (start * 16 + d))

end Sys2Proof.Machine
end

