-- ==== Sys2Proof/Laws/Frames.lean ====
section
/-! SUPPORT. What completing a packet can do (R125, R134 to R136), said once. -/

namespace Sys2Proof.Machine

/-- Where the decoder stands after `resume` or `deliver`, POS unmoved: a frame waits for a child, or the decode has
ended with a tree, or with one of the two closing errors. -/
def Settled (s t : State) : Prop :=
  (∃ fs, fs ≠ [] ∧ t = { s with frames := fs }) ∨ (∃ p, t = decodeSuccess p s.pos s) ∨
    t = decodeFailure .framingMismatch .none s.pos s ∨ t = decodeFailure .invalidStructure .none s.pos s

theorem resume_settles (s : State) (f : Frame) (below : List Frame) : Settled s (resume s f below) := by
  induction below generalizing f with
  | nil =>
    unfold resume
    split
    · exact .inl ⟨_, by simp, rfl⟩
    · exact .inr (.inr (.inl rfl))
    · split
      · exact .inr (.inl ⟨_, rfl⟩)
      · exact .inr (.inr (.inr rfl))
  | cons g lower ih =>
    unfold resume
    split
    · exact .inl ⟨_, by simp, rfl⟩
    · exact .inr (.inr (.inl rfl))
    · split
      · exact ih _
      · exact .inr (.inr (.inr rfl))

theorem deliver_settles (p : Packet) (s : State) : Settled s (s.deliver p) := by
  unfold State.deliver
  split
  · exact .inr (.inl ⟨_, rfl⟩)
  · exact resume_settles ..

/-- A frame whose loop test wants another child stays open. -/
theorem resume_of_wantsChild {s : State} {f : Frame} {below : List Frame} (h : f.status s.pos = .wantsChild) :
    resume s f below = { s with frames := f :: below } := by
  unfold resume; rw [h]

/-- A frame that was overshot ends the decode (R126). -/
theorem resume_of_overshot {s : State} {f : Frame} {below : List Frame} (h : f.status s.pos = .overshot) :
    resume s f below = decodeFailure .framingMismatch .none s.pos s := by
  unfold resume; rw [h]; rfl

/-- The frames a state already holds do not enter into `resume`: it is given them. -/
theorem resume_frames (s : State) (fs : List Frame) (f : Frame) (below : List Frame) :
    resume { s with frames := fs } f below = resume s f below := by
  induction below generalizing f with
  | nil => unfold resume; rfl
  | cons g lower ih =>
    unfold resume
    dsimp only
    cases f.status s.pos with
    | wantsChild => rfl
    | overshot => rfl
    | full =>
      cases arityOk f.type (Packets.length f.children) with
      | false => rfl
      | true => exact ih _

/-- A complete frame that passes the closing checks is a completed packet one frame down. -/
theorem resume_of_full {s : State} {f : Frame} {below : List Frame} (h : f.status s.pos = .full)
    (ok : arityOk f.type (Packets.length f.children) = true) :
    resume s f below = State.deliver f.packet { s with frames := below } := by
  cases below with
  | nil => unfold resume; rw [h]; simp only [ok, if_true]; rfl
  | cons g lower =>
    unfold resume; rw [h]; simp only [ok, if_true]
    exact (resume_frames s (g :: lower) _ lower).symm

/-- A complete frame that fails the closing checks ends the decode (R134, R135). -/
theorem resume_of_bad_arity {s : State} {f : Frame} {below : List Frame} (h : f.status s.pos = .full)
    (bad : arityOk f.type (Packets.length f.children) = false) :
    resume s f below = decodeFailure .invalidStructure .none s.pos s := by
  unfold resume; rw [h]; simp only [bad]; rfl

end Sys2Proof.Machine
end

