-- ==== Sys2Proof/Laws/Literal.lean ====
section
/-! SUPPORT. What reading a Literal's groups can do (R123, R124), said once. -/

namespace Sys2Proof.Machine

/-- Where reading a Literal's groups leads from s: POS has moved on to `pos`, and either the Literal was delivered
there, or the decode has ended with InsufficientBits or LimitExceeded(VALUE). -/
def GroupsEnd (version : Version) (s t : State) : Prop :=
  ∃ pos, s.pos ≤ pos ∧
    ((∃ value, tooWide value s.cfg.valueBits = false ∧ (pos ≤ s.len ∨ pos = s.pos) ∧
        t = State.deliver (.lit version value) { s with pos := pos, acc := 0 }) ∨
      ((pos ≤ s.len ∨ pos = s.pos) ∧ t = decodeFailure .insufficientBits .none pos s) ∨
      ((pos ≤ s.len ∨ pos = s.pos) ∧ t = decodeFailure .limitExceeded .value pos s))

theorem GroupsEnd.of_later {version : Version} {s t : State} {pos acc : Nat} (h : s.pos ≤ pos) (hl : pos ≤ s.len)
    (g : GroupsEnd version { s with pos := pos, acc := acc } t) : GroupsEnd version s t := by
  obtain ⟨q, hq, g⟩ := g
  refine ⟨q, le_trans h hq, ?_⟩
  have key : ∀ {P : Prop}, (q ≤ s.len ∨ q = pos) ∧ P → (q ≤ s.len ∨ q = s.pos) ∧ P :=
    fun ⟨a, b⟩ => ⟨.inl (a.elim id fun e => e ▸ hl), b⟩
  rcases g with ⟨v, hv, hp, rfl⟩ | g | g
  · exact .inl ⟨v, hv, (key ⟨hp, trivial⟩).1, rfl⟩
  · exact .inr (.inl (key g))
  · exact .inr (.inr (key g))

/-- The value accumulated so far does not enter into where the groups end. -/
theorem GroupsEnd.of_acc {version : Version} {s t : State} {acc : Nat}
    (g : GroupsEnd version { s with acc := acc } t) : GroupsEnd version s t := g

theorem afterChunk_ends {version : Version} {next : State → State} {s : State} (more : Bool) (chunk : Nat)
    (h : ∀ acc, GroupsEnd version s (next { s with acc := acc })) :
    GroupsEnd version s (afterChunk version next more chunk s) := by
  unfold afterChunk
  simp only
  split
  · exact ⟨s.pos, le_rfl, .inr (.inr ⟨.inr rfl, rfl⟩)⟩
  · split
    · exact h _
    · rename_i hw _
      exact ⟨s.pos, le_rfl, .inl ⟨_, by simpa using hw, .inr rfl, rfl⟩⟩

theorem literalGroups_ends (version : Version) (fuel : Nat) (s : State) :
    GroupsEnd version s (literalGroups version fuel s) := by
  induction fuel generalizing s with
  | zero => exact ⟨s.pos, le_rfl, .inr (.inl ⟨.inr rfl, rfl⟩)⟩
  | succ fuel ih =>
    unfold literalGroups
    split
    · exact ⟨s.pos, le_rfl, .inr (.inl ⟨.inr rfl, rfl⟩)⟩
    · rename_i flag s1 h1
      obtain ⟨hn, -, rfl⟩ := popBits_eq_some.mp h1
      have hl : s.pos + 1 ≤ s.len := by unfold State.remaining at hn; omega
      refine GroupsEnd.of_later (pos := s.pos + 1) (acc := s.acc) (by omega) hl ?_
      split
      · exact ⟨_, le_rfl, .inr (.inl ⟨.inr rfl, rfl⟩)⟩
      · rename_i chunk s2 h2
        obtain ⟨hn2, -, rfl⟩ := popBits_eq_some.mp h2
        have hl2 : s.pos + 1 + 4 ≤ s.len := by
          simp only [State.remaining, State.len, State.advance_buf, State.advance_pos] at hn2 ⊢; omega
        refine GroupsEnd.of_later (pos := s.pos + 1 + 4) (acc := s.acc) (Nat.le_add_right _ _) hl2 ?_
        exact afterChunk_ends _ _ fun acc => GroupsEnd.of_acc (ih _)

/-- A field that stands at POS is popped, and what follows it then stands at POS (R101). -/
theorem popBits_of_drop {s : State} {x rest : Bits} {n : Nat} (h : s.buf.drop s.pos = x ++ rest)
    (hx : x.length = n) :
    s.popBits n = some (val x, s.advance n) ∧ (s.advance n).buf.drop (s.advance n).pos = rest := by
  constructor
  · have hl := congrArg List.length h
    simp only [List.length_drop, List.length_append] at hl
    refine popBits_eq_some.mpr ⟨by simp only [State.remaining, State.len]; omega, ?_, rfl⟩
    simp [memRead, h, ← hx]
  · simp [← List.drop_drop, h, ← hx]

/-- A whole group at POS is read and accumulated (R123). -/
theorem literalGroups_of_group {s : State} (version : Version) (fuel : Nat) (more : Bool) {chunk : Nat}
    (hc : chunk < 16) {rest : Bits} (h : s.buf.drop s.pos = groupBits more chunk ++ rest) :
    literalGroups version (fuel + 1) s =
        afterChunk version (literalGroups version fuel) more chunk { s with pos := s.pos + 5 } ∧
      s.buf.drop (s.pos + 5) = rest := by
  obtain ⟨h1, h2⟩ := popBits_of_drop (x := [more]) (n := 1) (by simpa [groupBits] using h) rfl
  obtain ⟨h3, h4⟩ := popBits_of_drop (x := bitsOf chunk 4) (n := 4) h2 (by simp)
  refine ⟨?_, h4⟩
  conv_lhs => unfold literalGroups
  simp only [h1, h3]
  rw [val_bitsOf (by omega)]
  cases more <;> rfl

/-- A chunk that keeps the value within VALUE_BITS (R123). -/
theorem afterChunk_of_fits {version : Version} {next : State → State} {more : Bool} {chunk : Nat} {s : State}
    (h : tooWide (s.acc * 16 + chunk) s.cfg.valueBits = false) :
    afterChunk version next more chunk s =
      if more then next { s with acc := s.acc * 16 + chunk }
      else State.deliver (.lit version (s.acc * 16 + chunk)) { s with acc := 0 } := by
  simp [afterChunk, h]

/-- A chunk that makes the value too wide (R124). -/
theorem afterChunk_of_tooWide {version : Version} {next : State → State} {more : Bool} {chunk : Nat} {s : State}
    (h : tooWide (s.acc * 16 + chunk) s.cfg.valueBits = true) :
    afterChunk version next more chunk s = decodeFailure .limitExceeded .value s.pos s := by
  simp [afterChunk, h]; rfl

/-- The groups of a list of chunks, one at a time: the flag says whether another follows (R72). -/
theorem groups_cons (d : Nat) (ds : List Nat) :
    groups (d :: ds) = groupBits (decide (ds ≠ [])) d ++ groups ds := by
  cases ds <;> simp [groups]

end Sys2Proof.Machine
end

