-- ==== Sys2Proof/Laws/Memory.lean ====
section
/-! SUPPORT. Every operation that writes a buffer keeps its form (R32), and reset's buffers have it. -/

namespace Sys2Proof.Machine

/-- A successful scan gives four bits a character, within the capacity (R100). -/
theorem scanHex_length {maxBits i : Nat} {text : List Char} {b : Bits} (h : scanHex maxBits i text = .ok b)
    (hi : 4 * i ≤ maxBits) : b.length = 4 * text.length ∧ 4 * i + b.length ≤ maxBits := by
  induction text generalizing i b with
  | nil => cases h; simpa using hi
  | cons c cs ih =>
    unfold scanHex at h
    split at h
    · cases h
    · split at h
      · cases h
      · split at h
        · cases h
        · rename_i rest hr
          cases h
          obtain ⟨hl, hb⟩ := ih hr (by omega)
          simp only [List.length_append, length_bitsOf, List.length_cons]
          omega

/-- LOADHEX keeps BUF's form, succeeding or not. -/
theorem loadHex_buf_wf (text : List Char) (s : State) :
    Memory.wf s.cfg.maxBits 4 (loadHex text s).buf = true := by
  unfold loadHex
  split
  · simp [takeError_load, loadFailure, Memory.wf]
  · rename_i bits h
    obtain ⟨hl, hb⟩ := scanHex_length h (by omega)
    have : bits.length ≤ s.cfg.maxBits ∧ bits.length % 4 = 0 := by omega
    simp [Memory.wf, this]

/-- The padded encoding is whole bytes (R166). -/
theorem padded_length_mod (b : Bits) : (padded b).length % 8 = 0 := by
  simp only [padded, padLength, List.length_append, List.length_replicate]; omega

/-- ENCODE keeps OUT's form, succeeding or not. -/
theorem encodeCommand_out_wf (p : Packet) (s : State) :
    Memory.wf s.cfg.maxBits 8 (encodeCommand p s).out = true := by
  unfold encodeCommand
  split
  · simp [takeError_encode, encodeFailure, Memory.wf]
  · rename_i b h
    have : b.length ≤ s.cfg.maxBits ∧ b.length % 8 = 0 := by
      unfold encoded at h
      split at h
      · cases h
      · split at h
        · cases h
        · split at h
          · cases h
          · cases h; exact ⟨by omega, padded_length_mod _⟩
    simp [Memory.wf, this]

/-- Reset's buffers have their form. -/
theorem afterReset_buf_wf (cfg : Config) (pending : List HostMove) (unit : Nat) :
    Memory.wf cfg.maxBits unit (State.afterReset cfg pending).buf = true ∧
      Memory.wf cfg.maxBits unit (State.afterReset cfg pending).out = true := by
  simp [Memory.wf, State.afterReset]

end Sys2Proof.Machine
end

