-- ==== Sys2Proof/Laws/PerInstr.lean ====
section
/-! SUPPORT. The per-instruction family: each instruction's encoding has the length its format gives it (R72 to
R74). -/

namespace Sys2Proof.Laws.EncodedLength

/-- The encoding of i is as long as its format's prefix. -/
def Statement (i : Instr) : Prop :=
  (encode i).length = i.prefixBits

theorem total_length (v : Version) (t : PacketType) (total : Nat) : (totalHeader v t total).length = 22 := by
  simp [totalHeader, headerBits]

theorem count_length (v : Version) (t : PacketType) (count : Nat) : (countHeader v t count).length = 18 := by
  simp [countHeader, headerBits]

theorem literal (version : Version) (more : Bool) (chunk : Nat) : Statement (.literal version more chunk) := by
  simp [Statement, encode, headerBits, groupBits, Instr.prefixBits]

theorem sumT (version : Version) (total : Nat) : Statement (.sumT version total) := total_length ..

theorem sumC (version : Version) (count : Nat) : Statement (.sumC version count) := count_length ..

theorem productT (version : Version) (total : Nat) : Statement (.productT version total) := total_length ..

theorem productC (version : Version) (count : Nat) : Statement (.productC version count) := count_length ..

theorem minimumT (version : Version) (total : Nat) : Statement (.minimumT version total) := total_length ..

theorem minimumC (version : Version) (count : Nat) : Statement (.minimumC version count) := count_length ..

theorem maximumT (version : Version) (total : Nat) : Statement (.maximumT version total) := total_length ..

theorem maximumC (version : Version) (count : Nat) : Statement (.maximumC version count) := count_length ..

theorem greaterThanT (version : Version) (total : Nat) : Statement (.greaterThanT version total) := total_length ..

theorem greaterThanC (version : Version) (count : Nat) : Statement (.greaterThanC version count) := count_length ..

theorem lessThanT (version : Version) (total : Nat) : Statement (.lessThanT version total) := total_length ..

theorem lessThanC (version : Version) (count : Nat) : Statement (.lessThanC version count) := count_length ..

theorem equalToT (version : Version) (total : Nat) : Statement (.equalToT version total) := total_length ..

theorem equalToC (version : Version) (count : Nat) : Statement (.equalToC version count) := count_length ..

end Sys2Proof.Laws.EncodedLength
end

