-- ==== Sys2Proof/Laws/Step.lean ====
section
/-! SUPPORT. What one instruction, one truncated packet, one command and one step can do, said once. -/

namespace Sys2Proof.Machine

/-- Entering a packet that a ceiling refuses ends the decode, whatever the packet is (R121). -/
theorem enter_of_refused {body : State → State} {s : State} (h : s.admits = false) :
    ∃ sub, (sub = .depth ∨ sub = .packets) ∧ s.enter body = decodeFailure .limitExceeded sub s.pos s := by
  rcases enter_cases body s with ⟨-, e⟩ | ⟨-, -, e⟩ | ⟨ha, -⟩
  · exact ⟨_, .inl rfl, e⟩
  · exact ⟨_, .inr rfl, e⟩
  · rw [h] at ha; cases ha

/-- A truncated packet ends the decode: at a ceiling, or with the missing bits (R121, R122). -/
theorem truncated_cases (offset : Nat) (s : State) :
    (∃ sub, (sub = .depth ∨ sub = .packets) ∧
      truncated offset s = decodeFailure .limitExceeded sub s.pos s) ∨
    (s.admits = true ∧ truncated offset s = decodeFailure .insufficientBits .none (s.pos + offset) s) := by
  cases ha : s.admits with
  | false => exact .inl (enter_of_refused ha)
  | true => exact .inr ⟨rfl, enter_of_admits ha⟩

/-- What an admitted instruction does: a LITERAL reads its groups, an operator opens a frame (R123, R125). -/
inductive Runs (s : State) : Instr → State → Prop where
  | literal (version : Version) (more : Bool) (chunk : Nat) :
    Runs s (.literal version more chunk)
      (afterChunk version (literalGroups version s.remaining) more chunk
        { s with pos := s.pos + 11, npkt := s.npkt + 1, acc := 0 })
  | total (i : Instr) (version : Version) (type : PacketType) (n : Nat) :
    type ≠ .literal → i.prefixBits = 22 →
    Runs s i (resume { s with pos := s.pos + 22, npkt := s.npkt + 1 }
      ⟨version, type, .total n (s.pos + 22), .nil⟩ s.frames)
  | count (i : Instr) (version : Version) (type : PacketType) (n : Nat) :
    type ≠ .literal → i.prefixBits = 18 →
    Runs s i (resume { s with pos := s.pos + 18, npkt := s.npkt + 1 }
      ⟨version, type, .count n, .nil⟩ s.frames)

/-- Everything an instruction can do (R121, R123, R125). -/
theorem exec_cases (i : Instr) (s : State) :
    ∃ t, exec i s = .next t ∧
      ((∃ sub, (sub = .depth ∨ sub = .packets) ∧ t = decodeFailure .limitExceeded sub s.pos s) ∨
        (s.admits = true ∧ Runs s i t)) := by
  cases ha : s.admits with
  | false => cases i <;> exact ⟨_, rfl, .inl (enter_of_refused ha)⟩
  | true =>
    have total (j : Instr) (version : Version) (type : PacketType) (n : Nat)
        (ht : type ≠ .literal) (hj : j.prefixBits = 22) :
        ∃ t, openTotal type version n s = .next t ∧
          ((∃ sub, (sub = .depth ∨ sub = .packets) ∧ t = decodeFailure .limitExceeded sub s.pos s) ∨
            (true = true ∧ Runs s j t)) :=
      ⟨_, rfl, .inr ⟨rfl, by rw [enter_of_admits ha]; exact .total j version type n ht hj⟩⟩
    have count (j : Instr) (version : Version) (type : PacketType) (n : Nat)
        (ht : type ≠ .literal) (hj : j.prefixBits = 18) :
        ∃ t, openCount type version n s = .next t ∧
          ((∃ sub, (sub = .depth ∨ sub = .packets) ∧ t = decodeFailure .limitExceeded sub s.pos s) ∨
            (true = true ∧ Runs s j t)) :=
      ⟨_, rfl, .inr ⟨rfl, by rw [enter_of_admits ha]; exact .count j version type n ht hj⟩⟩
    cases i with
    | literal version more chunk =>
      exact ⟨_, rfl, .inr ⟨rfl, by rw [enter_of_admits ha]; exact .literal version more chunk⟩⟩
    | _ version n =>
      first
      | exact total _ version _ n (by decide) rfl
      | exact count _ version _ n (by decide) rfl

/-- Everything an idle core does with the host's next move (R58, R230). -/
theorem serve_cases (s : State) :
    (s.pending = [] ∧ serve s = s) ∨
    (∃ c rest, s.pending = .issue c :: rest ∧ serve s = command c { s with pending := rest }) ∨
    (∃ rest, s.pending = .reset :: rest ∧ serve s = State.afterReset s.cfg rest) := by
  unfold serve
  rcases h : s.pending with _ | ⟨c | _, rest⟩ <;> simp

/-- Everything a step can do. -/
theorem step_cases (s : State) :
    (s.running = .idle ∧ step s = .next (serve s)) ∨
    (s.running ≠ .idle ∧
      ((∃ i rest, decode s.trailing = .ok (i, rest) ∧ step s = exec i s) ∨
        ∃ offset, decode s.trailing = .error (.insufficientBits offset) ∧
          step s = .next (truncated offset s))) := by
  cases hr : s.running with
  | idle => exact .inl ⟨rfl, by unfold step; rw [hr]⟩
  | _ =>
    refine .inr ⟨by decide, ?_⟩
    unfold step; rw [hr]; dsimp only
    split
    · rename_i i rest h; exact .inl ⟨i, rest, h, rfl⟩
    · rename_i offset h; exact .inr ⟨offset, h, rfl⟩

/-- One field read: what is left and what was read make up the sequence. -/
theorem field_length {n v : Nat} {b rest : Bits} (h : field n b = some (v, rest)) :
    rest.length + n = b.length := by
  obtain ⟨-, rfl⟩ := field_eq_some.mp h; simp; omega

/-- A rejected prefix lies within the bits that are left: the field that does not fit starts there (R101). -/
theorem decode_error_offset {b : Bits} {offset : Nat} (h : decode b = .error (.insufficientBits offset)) :
    offset ≤ b.length := by
  have framing (t c : Nat → Instr) (b : Bits) (k : Nat)
      (h : decodeFraming t c b = .error (.insufficientBits k)) : k ≤ b.length + 6 := by
    unfold decodeFraming at h
    split at h
    · cases h; omega
    · rename_i h1; have := field_length h1
      split at h <;> split at h <;> cases h <;> omega
  have group (v : Version) (b : Bits) (k : Nat)
      (h : decodeFirstGroup v b = .error (.insufficientBits k)) : k ≤ b.length + 6 := by
    unfold decodeFirstGroup at h
    split at h
    · cases h; omega
    · rename_i h1; have := field_length h1
      split at h <;> cases h; omega
  unfold decode at h
  split at h
  · cases h; omega
  · rename_i h1; have l1 := field_length h1
    split at h
    · cases h; omega
    · rename_i h2; have l2 := field_length h2
      split at h
      · have := group _ _ _ h; omega
      all_goals have := framing _ _ _ _ h; omega

/-- What a command can write outside its own results: nothing of the configuration and the host's moves; BUF and a
smaller POS only by a load, OUT only by ENCODE, RET only by POP and REMAINING; no command sets WARN itself, a
DECODEOUTER's decode does (R28, R40). -/
structure CommandFrame (c : Command) (s t : State) : Prop where
  cfg : t.cfg = s.cfg
  pending : t.pending = s.pending
  buf : t.buf = s.buf ∨ (∃ text, c = .loadHex text) ∨ ∃ text, c = .decodeOuter text
  pos : s.pos ≤ t.pos ∨ t.pos = 0 ∧ ((∃ text, c = .loadHex text) ∨ ∃ text, c = .decodeOuter text)
  out : t.out = s.out ∨ ∃ p, c = .encode p
  ret : t.ret = s.ret ∨ (∃ n, c = .pop n) ∨ c = .remaining
  warn : t.warn = true → s.warn = true

/-- Every command keeps its frame. -/
theorem command_frame (c : Command) (s : State) : CommandFrame c s (command c s) := by
  cases c with
  | loadHex text =>
    simp only [command]; unfold loadHex
    split <;> constructor <;> simp [takeError_load, loadFailure]
  | decodeOuter text =>
    simp only [command]; unfold decodeOuterCommand loadHex
    split
    · dsimp only; split <;> constructor <;> simp [takeError_load, loadFailure]
    · constructor <;> simp
  | pop n =>
    simp only [command]; unfold popCommand
    split
    · constructor <;> simp [State.takeError, State.unwind]
    · split
      · constructor <;> simp [State.takeError, State.unwind]
      · rename_i h; obtain ⟨-, -, rfl⟩ := popBits_eq_some.mp h; constructor <;> simp
  | remaining => constructor <;> simp [command, remainingCommand]
  | decode => constructor <;> simp [command, decodeCommand]
  | encode p =>
    simp only [command]; unfold encodeCommand
    split <;> constructor <;> simp [takeError_encode, encodeFailure]

end Sys2Proof.Machine
end

