-- ==== Sys2Proof/Tests/Slice0.lean ====
section
/-! SUPPORT. The model's own tests: ill-formed terms, words written out from the spec's layouts, one-step tests whose
expected results stand in `95_test_vectors.md` (named by their ids) or follow by hand from a rule, and for each
statement with hypotheses a witness that something meets them. -/

namespace Sys2Proof.Tests

open Sys2Proof Sys2Proof.Machine

/-- A bit sequence written as 0s and 1s in stream order. -/
def b (l : List Nat) : Bits :=
  l.map (· == 1)

/-- The next state an outcome answers. -/
def nextOf : Host.Outcome State Fault Refusal → Option State
  | .next t => some t
  | .fault _ => none
  | .refused _ => none

/-- A core in the middle of a DECODEOUTER, with these bits, this POS and these open frames. -/
def decoding (buf : Bits) (pos : Nat) (frames : List Frame) : State :=
  { State.reset with buf := buf, pos := pos, frames := frames, npkt := openNodes frames, running := .decodeOuter }

/-- An idle core with these bits, at POS, the host having one command pending. -/
def idleWith (buf : Bits) (pos : Nat) (c : Command) : State :=
  { State.reset with buf := buf, pos := pos, pending := [.issue c] }

/-- The children list of these packets. -/
def packets : List Packet → Packets
  | [] => .nil
  | p :: ps => .cons p (packets ps)

/-- The configuration of R6 with MAX_DEPTH, MAX_PACKETS and VALUE_BITS replaced. -/
def ceilings (depth packets value : Ceiling) : Config :=
  { Config.standard with maxDepth := depth, maxPackets := packets, valueBits := value }

/-- S1: the 24 bits of `D2FE28`. -/
def s1 : Bits :=
  b [1,1,0, 1,0,0, 1, 0,1,1,1, 1, 1,1,1,0, 0, 0,1,0,1, 0,0,0]

/-- S2: the header of its LESS_THAN, T = 27. -/
def s2Header : Bits :=
  b [0,0,1, 1,1,0, 0, 0,0,0,0,0,0,0,0,0,0,1,1,0,1,1]

/-- S2: its children, Lit(6, 10) and Lit(2, 20). -/
def s2Children : Bits :=
  b [1,1,0, 1,0,0, 0, 1,0,1,0] ++ b [0,1,0, 1,0,0, 1, 0,0,0,1, 0, 0,1,0,0]

/-- S2: the 56 bits of `38006F45291200`. -/
def s2 : Bits :=
  s2Header ++ s2Children ++ b [0,0,0,0,0,0,0]

/-- S2's operator in progress: its frame before any child. -/
def s2Frame (children : List Packet) : Frame :=
  ⟨1, .lessThan, .total 27 22, packets children⟩

/-! ### WellFormed: each check refuses an ill-formed term -/

theorem test_wellFormed_chunk :
    (Instr.literal 0 false 15).wellFormed = true ∧ (Instr.literal 0 false 16).wellFormed = false := by decide

theorem test_wellFormed_total : ∀ i ∈ [Instr.sumT, .productT, .minimumT, .maximumT, .greaterThanT, .lessThanT,
    .equalToT].map (fun mk => (mk 0)), (i 32767).wellFormed = true ∧ (i 32768).wellFormed = false := by
  intro i hi; fin_cases hi <;> decide

theorem test_wellFormed_count : ∀ i ∈ [Instr.sumC, .productC, .minimumC, .maximumC, .greaterThanC, .lessThanC,
    .equalToC].map (fun mk => (mk 0)), (i 2047).wellFormed = true ∧ (i 2048).wellFormed = false := by
  intro i hi; fin_cases hi <;> decide

/-- An operator of type LITERAL and a comparison of three children are no well-formed trees (R25, V-E41, V-E43). -/
theorem test_wf_refuses :
    wf (.op 1 .literal .immediateCount (packets [.lit 0 1])) = false ∧
    wf (.op 1 .sum .immediateCount .nil) = false ∧
    wf (.op 1 .lessThan .immediateCount (packets [.lit 0 1, .lit 0 2, .lit 0 3])) = false ∧
    wf (.op 1 .lessThan .totalBits (packets [.lit 0 1, .lit 0 2])) = true := by decide

/-- The domains of R6: MAX_BITS a positive multiple of 8, VALUE_BITS at least 4, POP_MAX at least 15. -/
theorem test_config_domains :
    Config.standard.wf = true ∧ Config.wf { Config.standard with maxBits := 12 } = false ∧
    Config.wf { Config.standard with maxBits := 0 } = false ∧
    Config.wf { Config.standard with maxDepth := .limit 0 } = false ∧
    Config.wf { Config.standard with maxPackets := .limit 0 } = false ∧
    Config.wf { Config.standard with valueBits := .limit 3 } = false ∧
    Config.wf { Config.standard with popMax := 14 } = false := by decide

/-! ### Decode: every constructor, from a word written out bit by bit -/

/-- S1. -/
theorem test_decode_literal :
    decode (b [1,1,0, 1,0,0, 1, 0,1,1,1]) = .ok (.literal 6 true 7, []) := by decide
/-- V-D21. -/
theorem test_decode_sumT :
    decode (b [1,1,0, 0,0,0, 0, 0,0,0,0,0,0,0,0,0,0,1,0,1,1,0]) = .ok (.sumT 6 22, []) := by decide
/-- S5. -/
theorem test_decode_sumC :
    decode (b [1,1,0, 0,0,0, 1, 0,0,0,0,0,0,0,0,0,1,0]) = .ok (.sumC 6 2, []) := by decide
/-- S6. -/
theorem test_decode_productT :
    decode (b [0,0,0, 0,0,1, 0, 0,0,0,0,0,0,0,0,0,0,1,0,1,1,0]) = .ok (.productT 0 22, []) := by decide
/-- V-D25. -/
theorem test_decode_productC :
    decode (b [0,0,0, 0,0,1, 1, 0,0,0,0,0,0,0,0,0,1,0]) = .ok (.productC 0 2, []) := by decide
/-- V-D26. -/
theorem test_decode_minimumT :
    decode (b [1,0,0, 0,1,0, 0, 0,0,0,0,0,0,0,0,0,1,0,0,0,0,1]) = .ok (.minimumT 4 33, []) := by decide
/-- S3. -/
theorem test_decode_minimumC :
    decode (b [1,0,0, 0,1,0, 1, 0,0,0,0,0,0,0,0,0,0,1]) = .ok (.minimumC 4 1, []) := by decide
/-- R73 and R81 by hand: type 3, the largest total 32767. -/
theorem test_decode_maximumT :
    decode (b [1,1,0, 0,1,1, 0, 1,1,1,1,1,1,1,1,1,1,1,1,1,1,1]) = .ok (.maximumT 6 32767, []) := by decide
/-- V-D28. -/
theorem test_decode_maximumC :
    decode (b [1,1,0, 0,1,1, 1, 0,0,0,0,0,0,0,0,0,1,1]) = .ok (.maximumC 6 3, []) := by decide
/-- R73 and R81 by hand: type 5, a total of 2^14 whose first bit is 1. -/
theorem test_decode_greaterThanT :
    decode (b [0,1,1, 1,0,1, 0, 1,0,0,0,0,0,0,0,0,0,0,0,0,0,0]) = .ok (.greaterThanT 3 16384, []) := by decide
/-- V-D30. -/
theorem test_decode_greaterThanC :
    decode (b [1,1,1, 1,0,1, 1, 0,0,0,0,0,0,0,0,0,1,0]) = .ok (.greaterThanC 7 2, []) := by decide
/-- S2. -/
theorem test_decode_lessThanT : decode s2Header = .ok (.lessThanT 1 27, []) := by decide
/-- V-D32. -/
theorem test_decode_lessThanC :
    decode (b [0,0,1, 1,1,0, 1, 0,0,0,0,0,0,0,0,0,1,0]) = .ok (.lessThanC 1 2, []) := by decide
/-- S7. -/
theorem test_decode_equalToT :
    decode (b [1,0,0, 1,1,1, 0, 0,0,0,0,0,0,0,0,1,0,1,0,0,0,0]) = .ok (.equalToT 4 80, []) := by decide
/-- V-D34. -/
theorem test_decode_equalToC :
    decode (b [1,1,1, 1,1,1, 1, 0,0,0,0,0,0,0,0,0,1,0]) = .ok (.equalToC 7 2, []) := by decide

/-- The opcode table's match values of R81 decode to the rows they stand for. -/
theorem test_decodeTableWord :
    decodeTableWord 7 0x08 = some (.literal 0 false 0) ∧ decodeTableWord 7 0x09 = some (.literal 0 true 0) ∧
    decodeTableWord 7 0x00 = some (.sumT 0 0) ∧ decodeTableWord 7 0x0F = some (.equalToC 0 0) ∧
    decodeTableWord 7 0x7C = some (.lessThanT 7 0) := by decide

/-! ### One step of each instruction -/

/-- S1: 7, 14 and 5 make 2021, POS 21, and three zero bits raise no warning. -/
theorem test_literal_outer :
    step (decoding s1 0 []) = .next { State.reset with buf := s1, pos := 21, tree := some (.lit 6 2021) } := by
  rfl

/-- S2, its last child: 11 + 16 = 27 = T, so the operator is complete at 49, with WARN 1 for seven bits left. -/
theorem test_literal_closes :
    step (decoding s2 33 [s2Frame [.lit 6 10]]) = .next { State.reset with
      buf := s2, pos := 49, warn := true,
      tree := some (.op 1 .lessThan .totalBits (packets [.lit 6 10, .lit 2 20])) } := by
  rfl

/-- The seven mode-0 rows, on a total of 33: the children section starts 22 bits on. -/
theorem test_total_opens : ∀ t ∈ [(Instr.sumT 4 33, PacketType.sum), (.productT 4 33, .product),
    (.minimumT 4 33, .minimum), (.maximumT 4 33, .maximum), (.greaterThanT 4 33, .greaterThan),
    (.lessThanT 4 33, .lessThan), (.equalToT 4 33, .equalTo)],
    (nextOf (exec t.1 (decoding s2 8 []))).map (fun s => (s.pos, s.npkt, s.frames)) =
      some (30, 1, [⟨4, t.2, .total 33 30, .nil⟩]) := by decide

/-- The seven mode-1 rows, on a count of 3: the first child is 18 bits on. -/
theorem test_count_opens : ∀ t ∈ [(Instr.sumC 4 3, PacketType.sum), (.productC 4 3, .product),
    (.minimumC 4 3, .minimum), (.maximumC 4 3, .maximum), (.greaterThanC 4 3, .greaterThan),
    (.lessThanC 4 3, .lessThan), (.equalToC 4 3, .equalTo)],
    (nextOf (exec t.1 (decoding s2 8 []))).map (fun s => (s.pos, s.npkt, s.frames)) =
      some (26, 1, [⟨4, t.2, .count 3, .nil⟩]) := by decide

/-- V-X10: T = 0 is InvalidStructure at 22, directly after the length field. -/
theorem test_total_zero :
    (nextOf (exec (.lessThanT 1 0) (decoding s2 0 []))).map (fun s => (s.err, s.errPos, s.running)) =
      some (.invalidStructure, 22, .idle) := by decide

/-- V-X11: N = 0 is InvalidStructure at 18. -/
theorem test_count_zero :
    (nextOf (exec (.sumC 0 0) (decoding s2 0 []))).map (fun s => (s.err, s.errPos, s.running)) =
      some (.invalidStructure, 18, .idle) := by decide

/-- V-X8: with T = 10 the first Literal of 11 bits overshoots, at 33. -/
theorem test_literal_overshoots :
    (nextOf (step (decoding s2 22 [⟨1, .lessThan, .total 10 22, .nil⟩]))).map (fun s => (s.err, s.errPos)) =
      some (.framingMismatch, 33) := by decide

/-- V-X17: with MAX_DEPTH = 3 a packet at depth 4 is refused before any bit of it is read. -/
theorem test_depth_ceiling :
    (nextOf (step { decoding s2 22 [s2Frame [], s2Frame [], s2Frame []] with
      cfg := ceilings (.limit 3) .inf .inf })).map (fun s => (s.err, s.errSub, s.errPos)) =
      some (.limitExceeded, .depth, 22) := by decide

/-- V-D12: with VALUE_BITS = 10 the third chunk makes 2021 too wide, at 21. -/
theorem test_value_ceiling :
    (nextOf (step { decoding s1 0 [] with cfg := ceilings .inf .inf (.limit 10) })).map
      (fun s => (s.err, s.errSub, s.errPos)) = some (.limitExceeded, .value, 21) := by decide

/-- withFetchWord puts EQUAL_TO.C's row where the next step fetches it. -/
theorem test_withFetchWord :
    (fetch (State.reset.withFetchWord 7 0x0F)).toOption.map Prod.fst = some (.equalToC 0 0) ∧
    (State.reset.withFetchWord 7 0x0F).running = .decode := by decide

/-! ### The commands -/

/-- V-B1, V-B2: either case, four bits a digit, the first most significant. -/
theorem test_loadHex :
    (loadHex ['D', '2', 'f', 'E', '2', '8'] State.reset).buf = s1 ∧
    (loadHex ['D', '2', 'F', 'G', '2', '8'] State.reset).err = .malformedInput := by decide

/-- V-B11: POP 6 of S1 is 52. -/
theorem test_pop :
    (popCommand 6 (idleWith s1 0 .remaining)).ret = 52 ∧ (popCommand 6 (idleWith s1 0 .remaining)).pos = 6 := by
  decide

/-- R51's example `D2` is one byte, 1101 0010; after a third digit `F` byte 1 has its high nibble only. -/
theorem test_byteView :
    byteView (b [1,1,0,1, 0,0,1,0, 1,1,1,1]) 0 = some 0xD2 ∧
    byteView (b [1,1,0,1, 0,0,1,0, 1,1,1,1]) 1 = none ∧
    highNibble (b [1,1,0,1, 0,0,1,0, 1,1,1,0]) 1 = some 0xE ∧
    byteBit (b [1,1,0,1, 0,0,1,0, 1,1,1,0]) 1 7 = some true ∧
    byteBit (b [1,1,0,1, 0,0,1,0, 1,1,1,0]) 1 4 = some false ∧
    byteBit (b [1,1,0,1, 0,0,1,0, 1,1,1,0]) 1 3 = none ∧
    byteBit (b [1,1,0,1, 0,0,1,0, 1,1,1,0]) 0 8 = none := by decide

/-- V-B14, V-B16: POP 1 at the end is InsufficientBits, POP 0 IllegalOperand. -/
theorem test_pop_errors :
    (popCommand 1 (idleWith s1 24 .remaining)).err = .insufficientBits ∧
    (popCommand 0 (idleWith s1 24 .remaining)).err = .illegalOperand := by decide

/-- P1 step 10: three bits are left. -/
theorem test_remaining : (remainingCommand (idleWith s1 21 .remaining)).ret = 3 := by decide

/-- V-E10 and V-E3: 2021 encodes to S1 with three bits of padding, 16 to two whole bytes. -/
theorem test_encode :
    (encodeCommand (.lit 6 2021) State.reset).out = s1 ∧
    toHex (encodeCommand (.lit 0 16) State.reset).out = ['1', '2', '2', '0'] := by decide

/-- V-E21: under FORCE_COUNT S2 encodes to `3A00B4529120`. -/
theorem test_encode_forceCount :
    toHex (encodeCommand (.op 1 .lessThan .totalBits (packets [.lit 6 10, .lit 2 20]))
      (State.afterReset { Config.standard with encPolicy := .forceCount } [])).out =
        ['3', 'A', '0', '0', 'B', '4', '5', '2', '9', '1', '2', '0'] := by decide

/-- V-C6, V-C7 and V-C10. -/
theorem test_companions :
    evaluate (.op 0 .greaterThan .immediateCount (packets [.lit 0 6, .lit 0 5])) = .value 1 ∧
    evaluate (.op 0 .lessThan .immediateCount (packets [.lit 0 6, .lit 0 5])) = .value 0 ∧
    evaluate (.op 0 .sum .immediateCount .nil) = .arityError ∧
    versionSum (.op 1 .lessThan .totalBits (packets [.lit 6 10, .lit 2 20])) = 9 := by decide

/-! ### Witnesses: states and operands that meet a statement's hypotheses, each clause at a boundary value -/

/-- A decode whose state admits a packet only just: MAX_DEPTH and MAX_PACKETS are reached, not passed. -/
def atCeilings (buf : Bits) (pos : Nat) (frames : List Frame) : State :=
  { decoding buf pos frames with
    cfg := ceilings (.limit (frames.length + 1)) (.limit (openNodes frames + 1)) .inf }

theorem witness_DecodeOfEncodeIsTheInstruction :
    (Instr.literal 7 true 15).wellFormed = true ∧ (Instr.minimumT 5 32767).wellFormed = true ∧
    (Instr.equalToC 0 2047).wellFormed = true := by decide

theorem witness_DecodedBitsAreTheEncoding :
    decode (s2Header ++ s2Children) = .ok (.lessThanT 1 27, s2Children) := by decide

/-- The clauses of OnlyATruncatedPrefixIsRejected meet at 2 and 3, 5 and 6, 6 and 7, size - 1 and size, for a LITERAL's
11 bits, a `.C`'s 18 and a `.T`'s 22. -/
theorem witness_OnlyATruncatedPrefixIsRejected :
    ([] : Bits).length < 3 ∧ (s1.take 2).length < 3 ∧ (3 ≤ (s1.take 3).length ∧ (s1.take 5).length < 6) ∧
    (s1.take 6).length = 6 ∧ (7 ≤ (s1.take 7).length ∧ (s1.take 10).length < 11) ∧ 11 ≤ (s1.take 11).length ∧
    (11 = if val (((s1.take 11).drop 3).take 3) = 4 then 11 else if (s1.take 11)[6]? = some true then 18 else 22) ∧
    (22 = if val ((s2Header.drop 3).take 3) = 4 then 11 else if s2Header[6]? = some true then 18 else 22) ∧
    (18 = if val (((b [1,1,0, 0,0,0, 1]).drop 3).take 3) = 4 then 11
      else if (b [1,1,0, 0,0,0, 1])[6]? = some true then 18 else 22) := by decide

theorem witness_StepRunsTheDecodedInstruction :
    (decoding s2 0 []).running ≠ .idle ∧
    decode ((decoding s2 0 []).buf.drop (decoding s2 0 []).pos) = .ok (.lessThanT 1 27, s2.drop 22) := by decide

/-- V-X1, V-X2, V-X3 and a `.T` header whose total lacks its last bit: offsets 0, 3, 7 and 7; and an offset of 6. -/
theorem witness_TruncatedPacketEndsTheDecode :
    ∀ t ∈ [(([] : Bits), 0), (s1.take 4, 3), (s1.take 6, 6), (s1.take 8, 7), (s2.take 21, 7)],
      (atCeilings t.1 0 []).running ≠ .idle ∧ (atCeilings t.1 0 []).admits = true ∧
      decode ((atCeilings t.1 0 []).buf.drop (atCeilings t.1 0 []).pos) = .error (.insufficientBits t.2) := by
  decide

/-- A ceiling is passed at one more than its value. -/
theorem witness_CeilingsRefuseAPacketAtItsEntry :
    (let s := { decoding s2 22 [s2Frame []] with cfg := ceilings (.limit 1) .inf .inf };
      s.running ≠ .idle ∧ passes s.depth s.cfg.maxDepth = true) ∧
    (let s := { decoding s2 22 [s2Frame []] with cfg := ceilings (.limit 2) (.limit 1) .inf };
      s.running ≠ .idle ∧ passes s.depth s.cfg.maxDepth = false ∧
        passes (s.npkt + 1) s.cfg.maxPackets = true) := by decide

theorem witness_EveryInstructionKeepsItsFrame :
    exec (.literal 6 true 7) (decoding s1 0 []) =
      .next { State.reset with buf := s1, pos := 21, tree := some (.lit 6 2021) } ∧
    exec (.lessThanT 1 27) (decoding s2 0 []) =
      .next { decoding s2 22 [s2Frame []] with npkt := 1 } := ⟨rfl, rfl⟩

/-- S1 with two further groups, and V-D1 with none; VALUE_BITS = 11 is just enough for 2021. -/
theorem witness_OuterLiteralIsDelivered :
    (let s := { atCeilings s1 0 [] with cfg := ceilings (.limit 1) (.limit 1) (.limit 11) };
      s.admits = true ∧ s.frames = [] ∧ (∀ d ∈ [14, 5], d < 16) ∧
        s.buf.drop (s.pos + 11) = groups [14, 5] ++ b [0,0,0] ∧
        tooWide (valueOf 0 [7, 14, 5]) s.cfg.valueBits = false) ∧
    (let s := atCeilings (b [0,0,0, 1,0,0, 0, 0,0,0,0, 0,0,0,0,0]) 0 [];
      s.admits = true ∧ s.frames = [] ∧ (∀ d ∈ ([] : List Nat), d < 16) ∧
        s.buf.drop (s.pos + 11) = groups [] ++ b [0,0,0,0,0] ∧
        tooWide (valueOf 0 [0]) s.cfg.valueBits = false) := by decide

/-- S2's first child leaves 16 of the 27 bits; with T = 12 it would leave one. -/
theorem witness_NestedLiteralJoinsItsFrame :
    (let s := atCeilings s2 22 [s2Frame []];
      s.admits = true ∧ s.frames = [s2Frame []] ∧ (∀ d ∈ ([] : List Nat), d < 16) ∧
        s.buf.drop (s.pos + 11) = groups [] ++ s2.drop 33 ∧ tooWide (valueOf 0 [10]) s.cfg.valueBits = false) ∧
    lacks (s2Frame []) 33 ∧ lacks ⟨1, .lessThan, .total 12 22, .nil⟩ 33 ∧
    lacks ⟨1, .sum, .count 2, .nil⟩ 33 := by
  refine ⟨by decide, ?_⟩
  simp only [lacks, s2Frame]; decide

/-- V-D12 and V-D13: 2021 is just too wide for 10 bits, and 126 for 4; 15 is too wide for 3. -/
theorem witness_TooWideLiteralIsRefusedAtItsGroup :
    (let s := { decoding s1 0 [] with cfg := ceilings .inf .inf (.limit 3) };
      s.admits = true ∧ tooWide 15 s.cfg.valueBits = true) ∧
    (let s := { decoding s1 0 [] with cfg := ceilings .inf .inf (.limit 10) };
      s.admits = true ∧ (∀ d ∈ [14], d < 16) ∧ 5 < 16 ∧
        s.buf.drop (s.pos + 11) = [14].flatMap (groupBits true) ++ groupBits false 5 ++ b [0,0,0] ∧
        tooWide (valueOf 0 [7, 14]) s.cfg.valueBits = false ∧
        tooWide (valueOf 0 [7, 14] * 16 + 5) s.cfg.valueBits = true) ∧
    (let s := { decoding s1 0 [] with cfg := ceilings .inf .inf (.limit 4) };
      s.admits = true ∧ (∀ d ∈ ([] : List Nat), d < 16) ∧ 14 < 16 ∧
        s.buf.drop (s.pos + 11) = [].flatMap (groupBits true) ++ groupBits true 14 ++ s1.drop 16 ∧
        tooWide (valueOf 0 [7]) s.cfg.valueBits = false ∧
        tooWide (valueOf 0 [7] * 16 + 14) s.cfg.valueBits = true) := by decide

/-- V-X5: nothing is left for the third flag; V-X6: three bits are left for its chunk. -/
theorem witness_TruncatedLiteralReportsItsField :
    ∀ t ∈ [(16, ([] : Bits)), (20, b [0, 0,1,0])],
      let s := decoding (s1.take t.1) 0 [];
      s.admits = true ∧ s.pos + 11 ≤ s.buf.length ∧ (∀ d ∈ [14], d < 16) ∧ t.2.length < 5 ∧
        s.buf.drop (s.pos + 11) = [14].flatMap (groupBits true) ++ t.2 ∧
        tooWide (valueOf 0 [7, 14]) s.cfg.valueBits = false := by decide

theorem witness_HeadersOpenAFrame :
    (atCeilings s2 0 []).admits = true ∧ (atCeilings s2 22 [s2Frame []]).admits = true ∧ 0 < 1 := by decide

theorem witness_ChildlessOperatorIsInvalid :
    (atCeilings s2 0 []).admits = true ∧
    Instr.lessThanT 1 0 ∈ [Instr.sumT 1 0, .productT 1 0, .minimumT 1 0, .maximumT 1 0,
      .greaterThanT 1 0, .lessThanT 1 0, .equalToT 1 0] ∧
    Instr.sumC 0 0 ∈ [Instr.sumC 0 0, .productC 0 0, .minimumC 0 0, .maximumC 0 0,
      .greaterThanC 0 0, .lessThanC 0 0, .equalToC 0 0] := by decide

/-- One bit less, exactly enough and one bit too many, in mode 0, the child ending at 49; both counts in mode 1. -/
theorem witness_CompletedPacketClosesItsFrames :
    (decoding s2 49 []).frames = [] ∧ (decoding s2 49 [s2Frame [.lit 6 10]]).frames = [s2Frame [.lit 6 10]] ∧
    lacks ⟨1, .lessThan, .total 28 22, .nil⟩ 49 ∧ completes ⟨1, .lessThan, .total 27 22, .nil⟩ 49 ∧
    overshoots ⟨1, .lessThan, .total 26 22, .nil⟩ 49 ∧
    lacks ⟨1, .lessThan, .count 2, .nil⟩ 49 ∧ completes ⟨1, .lessThan, .count 1, .nil⟩ 49 ∧
    (comparison .lessThan = true ∧ Packets.length Packets.nil ≠ 1) ∧
    (comparison .lessThan = true → Packets.length (packets [.lit 6 10]) = 1) ∧
    (comparison .sum = true → Packets.length Packets.nil = 1) := by
  simp only [lacks, completes, overshoots]; decide

theorem witness_LastLiteralBuildsTheOperator :
    (let s := atCeilings s2 38 [s2Frame [.lit 6 10]];
      s.admits = true ∧ s.frames = [s2Frame [.lit 6 10]] ∧ tooWide 4 s.cfg.valueBits = false) ∧
    completes (s2Frame [.lit 6 10]) (38 + 11) ∧
    (comparison (s2Frame [.lit 6 10]).type = true → Packets.length (s2Frame [.lit 6 10]).children = 1) := by
  refine ⟨by decide, ?_, by decide⟩
  unfold completes s2Frame; decide

/-- An idle core, for the statements about commands and the round trip. -/
theorem witness_EveryCommandRunsToItsAtomicEffect : (idleWith s1 21 .remaining).running = .idle := by decide

/-- A decode in progress, POS at the end of the buffer and before it. -/
theorem witness_DecodeEndsWithinItsBits :
    (decoding s1 0 []).running ≠ .idle ∧ (decoding s1 24 []).running ≠ .idle := by decide

/-- S2 read by the recursive decoder, for the three statements about its results; under MAX_DEPTH 2 and
MAX_PACKETS 3, both just enough. -/
theorem witness_DecodedPacketIsWithinItsBounds :
    dec (ceilings (.limit 2) (.limit 3) .inf) s2 57 1 0 0 =
      .done (.op 1 .lessThan .totalBits (packets [.lit 6 10, .lit 2 20])) 49 3 := by decide +kernel

theorem witness_DecodeReadsNothingBeyondItsPacket : (s2Header ++ s2Children).take 49 = s2.take 49 := by decide

/-- V-B5 fails to load, V-B1 loads. -/
theorem witness_DecodeOuterComposesLoadAndDecode :
    State.reset.running = .idle ∧ (loadHex ['D', '2', 'F', 'G', '2', '8'] State.reset).err ≠ .ok ∧
    (loadHex ['D', '2', 'F', 'E', '2', '8'] State.reset).err = .ok := by decide

theorem witness_DecodeIgnoresTheResultRegisters : (decoding s2 22 [s2Frame []]).running ≠ .idle := by decide

/-- A state in the middle of S2 meets the invariant, and so does the reset state; each steps on. -/
theorem witness_StepKeepsTheInvariant :
    Inv (decoding s2 33 [s2Frame [.lit 6 10]]) ∧ (∃ t, step (decoding s2 33 [s2Frame [.lit 6 10]]) = .next t) ∧
    Inv State.reset ∧ step State.reset = .next State.reset := by
  refine ⟨⟨by decide, by decide, by decide, by decide, by decide, by decide, ?_, by decide, by decide, by decide⟩,
    ⟨_, rfl⟩,
    ⟨by decide, by decide, by decide, by decide, by decide, by decide, ?_, by decide, by decide, by decide⟩, rfl⟩ <;>
  (intro p h; cases h)

theorem witness_ResetLeavesTheStatedValues :
    (let s := { idleWith s1 21 .remaining with pending := [.reset], warn := true };
      s.running = .idle ∧ s.pending = .reset :: []) := by decide

theorem witness_IdleCoreHoldsItsRegisters : State.reset.running = .idle ∧ State.reset.pending = [] := by decide

/-- V-B8: six digits fill a buffer of 24 bits exactly. -/
theorem witness_LoadHexFillsTheCursor :
    (let s := { idleWith s1 21 (.loadHex ['D', '2', 'f', 'E', '2', '8']) with
        cfg := { Config.standard with maxBits := 24 } };
      s.running = .idle ∧ s.pending = .issue (.loadHex ['D', '2', 'f', 'E', '2', '8']) :: [] ∧
        (∀ c ∈ ['D', '2', 'f', 'E', '2', '8'], hexval c ≠ none) ∧ 4 * 6 ≤ s.cfg.maxBits) :=
  ⟨rfl, rfl, by intro c h; fin_cases h <;> decide, by decide⟩

/-- V-B10 and V-B9, with MAX_BITS = 16: the fifth character is beyond the capacity, the `G` at index 2 is not. -/
theorem witness_LoadHexReportsTheFirstError :
    (let s := { idleWith s1 21 (.loadHex (['D', '2', 'F', 'E'] ++ 'G' :: ['8'])) with
        cfg := { Config.standard with maxBits := 16 } };
      s.running = .idle ∧ s.pending = .issue (.loadHex (['D', '2', 'F', 'E'] ++ 'G' :: ['8'])) :: [] ∧
        (∀ x ∈ ['D', '2', 'F', 'E'], hexval x ≠ none) ∧ 4 * 4 ≤ s.cfg.maxBits ∧ s.cfg.maxBits < 4 * (4 + 1)) ∧
    (let s := { idleWith s1 21 (.loadHex (['D', '2', 'F'] ++ 'G' :: ['8'])) with
        cfg := { Config.standard with maxBits := 16 } };
      s.running = .idle ∧ s.pending = .issue (.loadHex (['D', '2', 'F'] ++ 'G' :: ['8'])) :: [] ∧
        (∀ x ∈ ['D', '2', 'F'], hexval x ≠ none) ∧ 4 * 3 ≤ s.cfg.maxBits ∧ 4 * (3 + 1) ≤ s.cfg.maxBits ∧
        hexval 'G' = none) :=
  ⟨⟨rfl, rfl, by intro c h; fin_cases h <;> decide, by decide, by decide⟩,
    rfl, rfl, by intro c h; fin_cases h <;> decide, by decide, by decide, by decide⟩

/-- POP 0 and POP 65 are out of range, POP 64 is one bit too many for 63, POP 24 reads all of S1. -/
theorem witness_PopReadsOrRefuses :
    (0 < 1 ∨ Config.standard.popMax < 0) ∧ (65 < 1 ∨ Config.standard.popMax < 65) ∧
    (1 ≤ 64 ∧ 64 ≤ Config.standard.popMax ∧ (List.replicate 63 true).length - 0 < 64) ∧
    (1 ≤ 24 ∧ 24 ≤ Config.standard.popMax ∧ 24 ≤ s1.length - 0) := by decide

/-- V-B22 in small: the 6 bits of S1 that start at 0 are 52, and the last bit of S1 is 0. -/
theorem witness_PoppedValueFitsItsWidth :
    (idleWith s1 0 .remaining).popBits 6 = some (52, { idleWith s1 0 .remaining with pos := 6 }) ∧
    (idleWith s1 23 .remaining).popBits 1 = some (0, { idleWith s1 23 .remaining with pos := 24 }) := by decide

/-- Byte 0 of three digits is whole and byte 1 has its high nibble, at the boundary of each clause. -/
theorem witness_ByteViewNumbersTheBits :
    byteView (b [1,1,0,1, 0,0,1,0, 1,1,1,1]) 0 = some 210 ∧
    highNibble (b [1,1,0,1, 0,0,1,0, 1,1,1,1]) 0 = some 13 ∧
    highNibble (b [1,1,0,1, 0,0,1,0, 1,1,1,1]) 1 = some 15 := by decide

theorem witness_IdleCoreServesTheNextCommand :
    (idleWith s1 24 .remaining).running = .idle ∧
    (idleWith s1 24 .remaining).pending = .issue .remaining :: [] := by decide

/-- V-E3 fills exactly 16 bits with no padding, S1's Literal takes 21 bits and 3 of padding; MAX_BITS is just enough. -/
theorem witness_EncodeFillsTheOutput :
    ∀ t ∈ [((0 : Version), 16, 16), (6, 2021, 24)],
      let p : Packet := .lit t.1 t.2.1;
      let s := { idleWith s2 49 (.encode p) with cfg := { Config.standard with maxBits := t.2.2 } };
      s.running = .idle ∧ s.pending = .issue (.encode p) :: [] ∧ validate s.cfg p 1 0 = .ok 1 ∧
        enc s.cfg.encPolicy p = .ok (headerBits t.1 .literal ++ groups (digits t.2.1)) ∧
        (headerBits t.1 .literal ++ groups (digits t.2.1)).length +
          (8 - (headerBits t.1 .literal ++ groups (digits t.2.1)).length % 8) % 8 ≤ s.cfg.maxBits := by decide

/-- n Literals of version 0 and value 1. -/
def ones : Nat → Packets
  | 0 => .nil
  | n + 1 => .cons (.lit 0 1) (ones n)

theorem ones_length (n : Nat) : Packets.length (ones n) = n := by
  induction n with
  | zero => rfl
  | succ n ih => simp [ones, Packets.length, ih]

theorem ones_encode (n : Nat) : ∃ body, encAll .retain (ones n) = .ok body := by
  induction n with
  | zero => exact ⟨_, rfl⟩
  | succ n ih => obtain ⟨body, h⟩ := ih; exact ⟨_, by rw [ones, encAll, h]; rfl⟩

theorem ones_validate (n npkt : Nat) : validateAll Config.standard (ones n) 2 npkt = .ok (npkt + n) := by
  induction n generalizing npkt with
  | zero => rfl
  | succ n ih =>
    have h : validate Config.standard (.lit 0 1) 2 npkt = .ok (npkt + 1) := rfl
    rw [ones, validateAll, h]; dsimp only; rw [ih]; congr 1; omega

/-- V-E48: 2048 children are one too many for the 11-bit count. -/
theorem witness_EncodeReportsTheFieldOverflow :
    (let s := idleWith s2 49 (.encode (.op 0 .sum .immediateCount (ones 2048)));
      s.running = .idle ∧ s.pending = .issue (.encode (.op 0 .sum .immediateCount (ones 2048))) :: []) ∧
    validate Config.standard (.op 0 .sum .immediateCount (ones 2048)) 1 0 = .ok 2049 ∧
    enc .retain (.op 0 .sum .immediateCount (ones 2048)) = .error (.encodeOverflow, .none) := by
  refine ⟨⟨rfl, rfl⟩, ?_, ?_⟩
  · have e : entry Config.standard 1 0 = .ok 1 := rfl
    rw [validate, e]; dsimp only
    rw [ones_length, if_neg (by decide), ones_validate]
  · obtain ⟨body, h⟩ := ones_encode 2048
    rw [enc, h]; dsimp only
    rw [effectiveMode, encOperator, ones_length]; rfl

/-- V-E40, then S1's Literal with a byte too little of capacity (R167). -/
theorem witness_EncodeReportsErrorsInOrder :
    (let s := idleWith s2 49 (.encode (.op 1 .sum .immediateCount .nil));
      s.running = .idle ∧ s.pending = .issue (.encode (.op 1 .sum .immediateCount .nil)) :: [] ∧
        validate s.cfg (.op 1 .sum .immediateCount .nil) 1 0 = .error (.invalidStructure, .none)) ∧
    (let s := { idleWith s2 49 (.encode (.lit 6 2021)) with cfg := { Config.standard with maxBits := 16 } };
      s.running = .idle ∧ s.pending = .issue (.encode (.lit 6 2021)) :: [] ∧
        validate s.cfg (.lit 6 2021) 1 0 = .ok 1 ∧
        enc s.cfg.encPolicy (.lit 6 2021) = .ok (s1.take 21) ∧ s.cfg.maxBits < 21 + (8 - 21 % 8) % 8) :=
  ⟨⟨rfl, rfl, by decide⟩, rfl, rfl, by decide, by decide, by decide⟩

/-- S1's Literal under either policy, and V-D35's operator, whose one mode is 1. -/
theorem witness_EncodingHasThePacketsLength :
    enc .retain (.lit 6 2021) = .ok (s1.take 21) ∧
    enc .forceCount (.op 0 .sum .immediateCount (packets [.lit 0 0])) =
      .ok (b [0,0,0, 0,0,0, 1, 0,0,0,0,0,0,0,0,0,0,1, 0,0,0, 1,0,0, 0, 0,0,0,0]) ∧
    modesAre .immediateCount (.op 0 .sum .immediateCount (packets [.lit 0 0])) = true := by decide

theorem witness_PaddingReachesTheNextByte : (s1.take 21).length ≤ 24 ∧ 24 % 8 = 0 := by decide

/-- V-E20 and V-E21: S2's tree under RETAIN and under FORCE_COUNT, encoded into exactly 56 and 48 bits. -/
theorem witness_EncodeThenDecodeOuterRoundTrips :
    ∀ t ∈ [(EncPolicy.retain, 56), (.forceCount, 48)],
      let s := State.afterReset { Config.standard with encPolicy := t.1, maxBits := t.2 } [];
      s.running = .idle ∧
      (encodeCommand (.op 1 .lessThan .totalBits (packets [.lit 6 10, .lit 2 20])) s).err = .ok ∧
      (enc s.cfg.encPolicy (.op 1 .lessThan .totalBits (packets [.lit 6 10, .lit 2 20]))).isOk = true := by decide

/-- V-D9: sixteen bits are decoded, and the value takes eleven; S1 takes exactly the bits it was read from. -/
theorem witness_DecodedPacketEncodesToItsBits :
    dec Config.standard (b [1,1,0, 1,0,0, 1, 0,0,0,0, 0, 0,0,0,1]) 17 1 0 0 = .done (.lit 6 1) 16 1 ∧
    dec Config.standard s1 25 1 0 0 = .done (.lit 6 2021) 21 1 ∧
    enc .retain (.lit 6 2021) = .ok (s1.take 21) ∧ (s1.take 21).length = 21 - 0 := by decide +kernel

/-- V-C10: the trees of V-E20 and V-E21 differ in their mode only. -/
theorem witness_CompanionsRespectSemanticEquality :
    semEq (.op 1 .lessThan .totalBits (packets [.lit 6 10, .lit 2 20]))
      (.op 1 .lessThan .immediateCount (packets [.lit 6 10, .lit 2 20])) = true := by decide

/-- V-C2 is well formed; V-C7 has no child, V-C8 one child under a comparison. -/
theorem witness_EvaluateIsTotalOnWellFormedTrees :
    wf (.op 0 .minimum .immediateCount (packets [.lit 0 9])) = true ∧ PacketType.sum ≠ .literal ∧
    Packets.length .nil = 0 ∧ PacketType.greaterThan ≠ .literal ∧ comparison .greaterThan = true ∧
    Packets.length (packets [.lit 0 1]) ≠ 2 := by decide

/-- V-C6's operands. -/
theorem witness_EvaluateComparesInWireOrder :
    evaluate (.lit 0 6) = .value 6 ∧ evaluate (.lit 0 5) = .value 5 := by decide

/-- V-D26's children. -/
theorem witness_EvaluateFoldsTheChildren :
    evaluateAll (packets [.lit 5 7, .lit 6 8, .lit 0 9]) = .ok [7, 8, 9] ∧ [7, 8, 9] ≠ [] ∧
    evaluateAll (packets [.lit 0 9]) = .ok [9] := by decide

/-- A LOADHEX, an ENCODE and a POP each change their own register. -/
theorem witness_OnlyTheNamedCommandsWriteTheBuffers :
    (∃ t, step (idleWith [] 0 (.loadHex ['D'])) = .next t ∧ t.buf ≠ (idleWith [] 0 (.loadHex ['D'])).buf) ∧
    (∃ t, step (idleWith [] 0 (.encode (.lit 0 0))) = .next t ∧
      t.out ≠ (idleWith [] 0 (.encode (.lit 0 0))).out) ∧
    (∃ t, step (idleWith s1 0 (.pop 6)) = .next t ∧ t.ret ≠ (idleWith s1 0 (.pop 6)).ret) :=
  ⟨⟨_, rfl, by decide⟩, ⟨_, rfl, by decide⟩, ⟨_, rfl, by decide⟩⟩

theorem witness_PosMovesBackOnlyAtALoad :
    ∃ t, step (idleWith s1 21 (.loadHex ['D'])) = .next t ∧ t.pos < (idleWith s1 21 (.loadHex ['D'])).pos :=
  ⟨_, rfl, by decide⟩

/-- S2's seven trailing zero bits. -/
theorem witness_WarnRisesOnlyAfterAnOuterDecode :
    ∃ t, step (decoding s2 33 [s2Frame [.lit 6 10]]) = .next t ∧
      (decoding s2 33 [s2Frame [.lit 6 10]]).warn = false ∧ t.warn = true :=
  ⟨_, rfl, rfl, rfl⟩

/-- V-X7's rule and V-E40 reach an error of their command's column; V-B1 ends OK. -/
theorem witness_CommandsRaiseOnlyTheirErrors :
    ∀ t ∈ [(Command.decodeOuter ['D'], Err.insufficientBits), (.loadHex ['D'], .ok),
        (.encode (.op 1 .sum .immediateCount .nil), .invalidStructure), (.pop 0, .illegalOperand)],
      State.reset.running = .idle ∧ (commandAtOnce t.1 State.reset).map State.err = some t.2 := by
  decide +kernel

end Sys2Proof.Tests
end

section
/-! PROOF. The errors each operation can raise are ones ERR and ERRSUB may hold (R201 to R203). -/

namespace Sys2Proof.Machine

/-- An error the core may raise: not OK, never ArityError (R203), with a sub-cause exactly under LimitExceeded
(R201). -/
@[reducible] def LegalError (r : Raised) : Prop :=
  r.1 ≠ .ok ∧ r.1 ≠ .arityError ∧ (r.2 = .none ↔ r.1 ≠ .limitExceeded)

theorem entry_error_legal {cfg : Config} {d npkt : Nat} {r : Raised} (h : entry cfg d npkt = .error r) :
    LegalError r := by
  rcases entry_cases cfg d npkt with ⟨-, e⟩ | ⟨-, -, e⟩ | ⟨-, -, e⟩ <;> rw [e] at h <;> cases h <;> decide

theorem scanHex_error_legal {maxBits i : Nat} {text : List Char} {r : Raised}
    (h : scanHex maxBits i text = .error r) : LegalError r := by
  induction text generalizing i with
  | nil => cases h
  | cons c cs ih =>
    unfold scanHex at h
    split at h
    · cases h; decide
    · split at h
      · cases h; decide
      · split at h
        · rename_i e; cases h; exact ih e
        · cases h

mutual

theorem validate_error_legal {cfg : Config} {r : Raised} :
    ∀ {p : Packet} {d npkt : Nat}, validate cfg p d npkt = .error r → LegalError r
  | .lit _ _, d, npkt, h => by
    unfold validate at h
    split at h
    · rename_i e; cases h; exact entry_error_legal e
    · split at h <;> cases h; decide
  | .op _ _ _ cs, d, npkt, h => by
    unfold validate at h
    split at h
    · rename_i e; cases h; exact entry_error_legal e
    · split at h
      · cases h; decide
      · exact validateAll_error_legal h

theorem validateAll_error_legal {cfg : Config} {r : Raised} :
    ∀ {cs : Packets} {d npkt : Nat}, validateAll cfg cs d npkt = .error r → LegalError r
  | .nil, _, _, h => by cases h
  | .cons c cs, d, npkt, h => by
    unfold validateAll at h
    split at h
    · rename_i e; cases h; exact validate_error_legal e
    · exact validateAll_error_legal h

end

theorem encOperator_error_legal {v : Version} {t : PacketType} {m : LengthMode} {n : Nat} {body : Bits}
    {r : Raised} (h : encOperator v t m n body = .error r) : LegalError r := by
  unfold encOperator at h
  split at h <;> split at h <;> cases h <;> decide

mutual

theorem enc_error_legal {policy : EncPolicy} {r : Raised} :
    ∀ {p : Packet}, enc policy p = .error r → LegalError r
  | .lit _ _, h => by cases h
  | .op _ _ _ cs, h => by
    unfold enc at h
    split at h
    · rename_i e; cases h; exact encAll_error_legal e
    · exact encOperator_error_legal h

theorem encAll_error_legal {policy : EncPolicy} {r : Raised} :
    ∀ {cs : Packets}, encAll policy cs = .error r → LegalError r
  | .nil, h => by cases h
  | .cons c cs, h => by
    unfold encAll at h
    split at h
    · rename_i e; cases h; exact enc_error_legal e
    · split at h
      · rename_i e; cases h; exact encAll_error_legal e
      · cases h

end

/-- Everything ENCODE can answer (R160, R167): a legal error, or the padded encoding of a validated packet, within
the capacity. -/
theorem encoded_cases (cfg : Config) (p : Packet) :
    (∃ r, LegalError r ∧ encoded cfg p = .error r) ∨
    ∃ n b, validate cfg p 1 0 = .ok n ∧ enc cfg.encPolicy p = .ok b ∧ (padded b).length ≤ cfg.maxBits ∧
      encoded cfg p = .ok (padded b) := by
  unfold encoded
  rcases hv : validate cfg p 1 0 with r | n
  · exact .inl ⟨r, validate_error_legal hv, rfl⟩
  rcases he : enc cfg.encPolicy p with r | b
  · exact .inl ⟨r, enc_error_legal he, rfl⟩
  dsimp only
  split
  · exact .inl ⟨_, by decide, rfl⟩
  · exact .inr ⟨n, b, rfl, rfl, by omega, rfl⟩

end Sys2Proof.Machine
end

section
/-! PROOF. The invariant, taken apart: the registers meet it when the state without its transient part does, and each
way a decode can go on or end keeps it (R37, R121, R140). -/

namespace Sys2Proof.Machine

theorem Inv.discard {s : State} (h : Inv s) : Inv s.discard :=
  ⟨h.cursor, h.output, h.ret, h.err, h.errSub, h.errPos, h.tree, fun _ => ⟨rfl, rfl, rfl⟩, rfl, rfl,
    passes_mono (Nat.zero_le _) h.npkt.2⟩

/-- A decode in progress meets the invariant when its registers do and its frames and NPKT fit. -/
theorem inv_of_discard {s : State} (h : Inv s.discard) (running : s.running ≠ .idle)
    (frames : framesFit s.cfg s.pos s.frames = true) (nodes : openNodes s.frames = s.npkt)
    (count : passes s.npkt s.cfg.maxPackets = false) : Inv s :=
  ⟨h.cursor, h.output, h.ret, h.err, h.errSub, h.errPos, h.tree, fun hi => absurd hi running, frames, nodes, count⟩

/-- The registers still meet the invariant after POS has moved within the buffer. -/
theorem inv_discard_of_pos {s : State} {pos : Nat} (h : Inv s.discard) (hp : pos ≤ s.len) :
    Inv (State.discard { s with pos := pos }) :=
  ⟨⟨hp, h.cursor.2⟩, h.output, h.ret, h.err, h.errSub, h.errPos, h.tree, h.idle, h.frames, h.npkt⟩

theorem inv_decodeFailure {s : State} {e : Err} {sub : ErrSub} {pos : Nat} (h : Inv s.discard)
    (legal : LegalError (e, sub)) (hp : pos ≤ s.len) : Inv (decodeFailure e sub pos s) := by
  obtain ⟨notOk, notArity, subCause⟩ := legal
  exact ⟨⟨hp, h.cursor.2⟩, h.output, h.ret, notArity, subCause, ⟨fun ok => absurd ok notOk, hp⟩,
    fun p hp => by simp [decodeFailure] at hp, h.idle, h.frames, h.npkt⟩

theorem inv_decodeSuccess {s : State} {p : Packet} (h : Inv s.discard) (fits : treeFits s.cfg p = true) :
    Inv (decodeSuccess p s.pos s) :=
  ⟨h.cursor, h.output, h.ret, nofun, ⟨nofun, fun _ => rfl⟩, ⟨fun _ => rfl, Nat.zero_le _⟩,
    fun q hq => by cases hq; exact fits, h.idle, h.frames, h.npkt⟩

theorem passes_max {m n : Nat} {c : Ceiling} : passes (max m n) c = (passes m c || passes n c) := by
  cases c with
  | inf => rfl
  | limit k => simp [passes]

/-- The frames still fit when the cursor has moved on. -/
theorem framesFit_of_le {cfg : Config} {pos pos' : Nat} (h : pos ≤ pos') {fs : List Frame}
    (fits : framesFit cfg pos fs = true) : framesFit cfg pos' fs = true := by
  induction fs with
  | nil => rfl
  | cons f below ih =>
    simp only [framesFit, Bool.and_eq_true] at fits ⊢
    obtain ⟨⟨rest, start⟩, lower⟩ := fits
    refine ⟨⟨rest, ?_⟩, ih lower⟩
    split at start
    · simp only [decide_eq_true_eq] at start ⊢; omega
    · rfl

/-- What a completed packet must meet to be delivered at s: well formed, within VALUE_BITS and, from where it stands,
within MAX_DEPTH; it and the open frames make up NPKT (R37, R140). -/
structure Deliverable (s : State) (p : Packet) : Prop where
  frames : framesFit s.cfg s.pos s.frames = true
  wf : wf p = true
  values : valuesFit s.cfg.valueBits p = true
  depth : passes (s.frames.length + depth p) s.cfg.maxDepth = false
  nodes : openNodes s.frames + nodes p = s.npkt
  count : passes s.npkt s.cfg.maxPackets = false

/-- With no frame open, what may be delivered is what TREE may hold. -/
theorem Deliverable.treeFits {s : State} {p : Packet} (h : Deliverable s p) (hf : s.frames = []) :
    treeFits s.cfg p = true := by
  obtain ⟨-, wf, values, depth, nodes, count⟩ := h
  simp only [hf, openNodes, List.length_nil, Nat.zero_add] at depth nodes
  simp [Machine.treeFits, wf, values, depth, nodes, count]

/-- A deliverable packet joins the innermost frame. -/
theorem Deliverable.addChild {s : State} {p : Packet} {f : Frame} {below : List Frame} (h : Deliverable s p)
    (hf : s.frames = f :: below) :
    framesFit s.cfg s.pos (f.addChild p :: below) = true ∧ openNodes (f.addChild p :: below) = s.npkt := by
  obtain ⟨frames, wf, values, depth, nodes, -⟩ := h
  rw [hf] at frames depth nodes
  simp only [framesFit, Bool.and_eq_true, Bool.not_eq_true', openNodes, List.length_cons] at frames depth nodes
  obtain ⟨⟨⟨⟨⟨type, children⟩, vals⟩, deep⟩, start⟩, lower⟩ := frames
  constructor
  · simp only [framesFit, Frame.addChild, wfAll_snoc, valuesFitAll_snoc, depthAll_snoc, ← Nat.add_max_add_left,
      passes_max, Bool.and_eq_true, Bool.not_eq_true', Bool.or_eq_false_iff]
    exact ⟨⟨⟨⟨⟨type, children, wf⟩, vals, values⟩, deep, depth⟩, start⟩, lower⟩
  · simp only [openNodes, Frame.addChild, nodesAll_snoc]; omega

/-- A complete frame that passes the closing checks is deliverable one frame down. -/
theorem deliverable_of_full {s : State} {f : Frame} {below : List Frame}
    (frames : framesFit s.cfg s.pos (f :: below) = true) (nodes : openNodes (f :: below) = s.npkt)
    (count : passes s.npkt s.cfg.maxPackets = false) (ok : arityOk f.type (Packets.length f.children) = true) :
    Deliverable { s with frames := below } f.packet := by
  simp only [framesFit, Bool.and_eq_true, Bool.not_eq_true', decide_eq_true_eq, openNodes] at frames nodes
  obtain ⟨⟨⟨⟨⟨type, children⟩, vals⟩, deep⟩, -⟩, lower⟩ := frames
  refine ⟨lower, ?_, vals, ?_, ?_, count⟩
  · simp [Frame.packet, wf, type, ok, children]
  · simpa [Frame.packet, depth, Nat.add_assoc] using deep
  · simp only [Frame.packet, Machine.nodes]; omega

/-- The loop test and the closing checks keep the invariant where completing the operator one frame down does (R125,
R134 to R136). -/
theorem resume_inv_of_deliver {s : State} {f : Frame} {below : List Frame} (h : Inv s.discard)
    (running : s.running ≠ .idle) (frames : framesFit s.cfg s.pos (f :: below) = true)
    (nodes : openNodes (f :: below) = s.npkt) (count : passes s.npkt s.cfg.maxPackets = false)
    (lower : Deliverable { s with frames := below } f.packet →
      Inv (State.deliver f.packet { s with frames := below })) : Inv (resume s f below) := by
  cases status : f.status s.pos with
  | wantsChild => rw [resume_of_wantsChild status]; exact inv_of_discard h running frames nodes count
  | overshot => rw [resume_of_overshot status]; exact inv_decodeFailure h (by decide) h.cursor.1
  | full =>
    cases ok : arityOk f.type (Packets.length f.children) with
    | false => rw [resume_of_bad_arity status ok]; exact inv_decodeFailure h (by decide) h.cursor.1
    | true => rw [resume_of_full status ok]; exact lower (deliverable_of_full frames nodes count ok)

/-- Delivering a packet that may be delivered keeps the invariant, by induction on the open frames. -/
theorem deliver_inv {s : State} {p : Packet} (h : Inv s.discard) (running : s.running ≠ .idle)
    (fits : Deliverable s p) : Inv (s.deliver p) := by
  induction hf : s.frames generalizing s p with
  | nil =>
    simp only [State.deliver, hf, finishDecode_eq]
    exact inv_decodeSuccess h (fits.treeFits hf)
  | cons f below ih =>
    obtain ⟨frames, nodes⟩ := fits.addChild hf
    simp only [State.deliver, hf]
    exact resume_inv_of_deliver h running frames nodes fits.count fun lower => ih h running lower rfl

/-- The loop test and the closing checks keep the invariant. -/
theorem resume_inv {s : State} {f : Frame} {below : List Frame} (h : Inv s.discard) (running : s.running ≠ .idle)
    (frames : framesFit s.cfg s.pos (f :: below) = true) (nodes : openNodes (f :: below) = s.npkt)
    (count : passes s.npkt s.cfg.maxPackets = false) : Inv (resume s f below) :=
  resume_inv_of_deliver h running frames nodes count fun lower =>
    deliver_inv (s := { s with frames := below }) h running lower

end Sys2Proof.Machine
end

section
/-! PROOF. Every step keeps the invariant (R27, R31, R32, R37, R104, R140, R201, R203, R207). -/

namespace Sys2Proof.Machine

/-- The bits of a decoded instruction and those left behind it make up the sequence (R72 to R74). -/
theorem decode_length {b rest : Bits} {i : Instr} (h : decode b = .ok (i, rest)) :
    rest.length + i.prefixBits = b.length := by
  have framing (t c : Nat → Instr) (ht : ∀ n, (t n).prefixBits = 22) (hc : ∀ n, (c n).prefixBits = 18) (b : Bits)
      (h : decodeFraming t c b = .ok (i, rest)) : rest.length + i.prefixBits = b.length + 6 := by
    unfold decodeFraming at h
    split at h
    · cases h
    · rename_i h1; have l1 := field_length h1
      split at h <;> split at h <;> cases h <;> rename_i h2 <;> have l2 := field_length h2
      · rw [ht]; omega
      · rw [hc]; omega
  have group (v : Version) (b : Bits) (h : decodeFirstGroup v b = .ok (i, rest)) :
      rest.length + i.prefixBits = b.length + 6 := by
    unfold decodeFirstGroup at h
    split at h
    · cases h
    · rename_i h1; have l1 := field_length h1
      split at h <;> cases h; rename_i h2; have l2 := field_length h2
      simp only [Instr.prefixBits]; omega
  unfold decode at h
  split at h
  · cases h
  · rename_i h1; have l1 := field_length h1
    split at h
    · cases h
    · rename_i h2; have l2 := field_length h2
      split at h
      · have := group _ _ h; omega
      all_goals have := framing _ _ (fun _ => rfl) (fun _ => rfl) _ h; omega

/-- The two ceilings, as an admitting state meets them (R121). -/
theorem passes_of_admits {s : State} (h : s.admits = true) :
    passes (s.frames.length + 1) s.cfg.maxDepth = false ∧ passes (s.npkt + 1) s.cfg.maxPackets = false := by
  simpa [State.admits, State.depth] using h

/-- Reading a Literal from its first chunk on (R123). -/
theorem afterFirstChunk_ends (version : Version) (fuel : Nat) (more : Bool) (chunk : Nat) (s : State) :
    GroupsEnd version s (afterChunk version (literalGroups version fuel) more chunk s) :=
  afterChunk_ends _ _ fun _ => GroupsEnd.of_acc (literalGroups_ends ..)

/-- An admitted operator's frame, just opened, fits the frames below it (R125). -/
theorem framesFit_of_opened {s : State} {f : Frame} {n pos : Nat} (h : Inv s) (ha : s.admits = true)
    (type : f.type ≠ .literal) (children : f.children = .nil)
    (framing : f.framing = .total n pos ∨ f.framing = .count n) (hp : s.pos ≤ pos) :
    framesFit s.cfg pos (f :: s.frames) = true ∧ openNodes (f :: s.frames) = s.npkt + 1 := by
  obtain ⟨deep, -⟩ := passes_of_admits ha
  constructor
  · have lower := framesFit_of_le hp h.frames
    rcases framing with hf | hf <;>
      simp [framesFit, type, children, wfAll, valuesFitAll, depthAll, deep, lower, hf]
  · simp only [openNodes, children, nodesAll, h.npkt.1]; omega

/-- Where a Literal's groups end, the invariant holds, the Literal being counted and its depth admitted (R123,
R124). -/
theorem groupsEnd_inv {version : Version} {s t : State} (h : Inv s.discard) (running : s.running ≠ .idle)
    (frames : framesFit s.cfg s.pos s.frames = true) (nodes : openNodes s.frames + 1 = s.npkt)
    (deep : passes (s.frames.length + 1) s.cfg.maxDepth = false) (count : passes s.npkt s.cfg.maxPackets = false)
    (g : GroupsEnd version s t) : Inv t := by
  obtain ⟨pos, hpos, ends⟩ := g
  have inside : pos ≤ s.len ∨ pos = s.pos → pos ≤ s.len := fun hl => hl.elim id fun e => e ▸ h.cursor.1
  rcases ends with ⟨value, narrow, hl, rfl⟩ | ⟨hl, rfl⟩ | ⟨hl, rfl⟩
  · refine deliver_inv (inv_discard_of_pos h (inside hl)) running
      ⟨framesFit_of_le hpos frames, rfl, ?_, deep, nodes, count⟩
    simpa [valuesFit] using narrow
  · exact inv_decodeFailure h (by decide) (inside hl)
  · exact inv_decodeFailure h (by decide) (inside hl)

/-- An admitted instruction whose own bits lie within the buffer keeps the invariant (R123, R125). -/
theorem runs_inv {s t : State} {i : Instr} (h : Inv s) (running : s.running ≠ .idle) (ha : s.admits = true)
    (hp : s.pos + i.prefixBits ≤ s.len) (r : Runs s i t) : Inv t := by
  obtain ⟨deep, count⟩ := passes_of_admits ha
  cases r with
  | literal version more chunk =>
    exact groupsEnd_inv (s := { s with pos := s.pos + 11, npkt := s.npkt + 1, acc := 0 })
      (inv_discard_of_pos h.discard hp) running (framesFit_of_le (Nat.le_add_right _ _) h.frames)
      (congrArg (· + 1) h.npkt.1) deep count (afterFirstChunk_ends ..)
  | total _ version type n ht hi =>
    obtain ⟨frames, nodes⟩ := framesFit_of_opened (f := ⟨version, type, .total n (s.pos + 22), .nil⟩)
      (pos := s.pos + 22) h ha ht rfl (.inl rfl) (by omega)
    exact resume_inv (inv_discard_of_pos h.discard (hi ▸ hp)) running frames nodes count
  | count _ version type n ht hi =>
    obtain ⟨frames, nodes⟩ := framesFit_of_opened (f := ⟨version, type, .count n, .nil⟩)
      (pos := s.pos + 18) h ha ht rfl (.inr rfl) (by omega)
    exact resume_inv (inv_discard_of_pos h.discard (hi ▸ hp)) running frames nodes count

/-- The error a ceiling raises at a packet's entry is legal. -/
theorem ceilingError_legal {sub : ErrSub} (h : sub = .depth ∨ sub = .packets) :
    LegalError (.limitExceeded, sub) := by
  rcases h with rfl | rfl <;> decide

/-- A truncated packet keeps the invariant. -/
theorem truncated_inv {s : State} {offset : Nat} (h : Inv s) (hp : s.pos + offset ≤ s.len) :
    Inv (truncated offset s) := by
  rcases truncated_cases offset s with ⟨sub, hs, e⟩ | ⟨-, e⟩ <;> rw [e]
  · exact inv_decodeFailure h.discard (ceilingError_legal hs) h.cursor.1
  · exact inv_decodeFailure h.discard (by decide) hp

/-- An instruction whose own bits lie within the buffer keeps the invariant of a decode in progress. -/
theorem exec_inv {s t : State} {i : Instr} (h : Inv s) (running : s.running ≠ .idle)
    (hp : s.pos + i.prefixBits ≤ s.len) (e : exec i s = .next t) : Inv t := by
  obtain ⟨u, eu, c⟩ := exec_cases i s
  rw [e] at eu; cases eu
  rcases c with ⟨sub, hs, rfl⟩ | ⟨ha, r⟩
  · exact inv_decodeFailure h.discard (ceilingError_legal hs) h.cursor.1
  · exact runs_inv h running ha hp r

/-- Success of a command that leaves the decoder alone keeps the invariant. -/
theorem inv_succeed {s : State} (h : Inv s) : Inv s.succeed :=
  ⟨h.cursor, h.output, h.ret, nofun, ⟨nofun, fun _ => rfl⟩, ⟨fun _ => rfl, Nat.zero_le _⟩, h.tree, h.idle, h.frames,
    h.npkt⟩

/-- An error entry keeps the invariant that would hold were its effect a success (R206, R207). -/
theorem inv_takeError {s : State} {row : ErrorRow} {e : Err} {sub : ErrSub} (h : Inv (s.unwind row).succeed)
    (legal : LegalError (e, sub)) : Inv (s.takeError row e sub) := by
  obtain ⟨notOk, notArity, subCause⟩ := legal
  exact ⟨h.cursor, h.output, h.ret, notArity, subCause, ⟨fun ok => absurd ok notOk, h.cursor.1⟩, h.tree, h.idle,
    h.frames, h.npkt⟩

/-- A decode begins with nothing transient (R37). -/
theorem inv_beginDecode {s : State} {r : Running} (h : Inv s) : Inv (s.beginDecode r) :=
  ⟨h.cursor, h.output, h.ret, h.err, h.errSub, h.errPos, h.tree, fun _ => ⟨rfl, rfl, rfl⟩, rfl,
    h.discard.npkt⟩

/-- An idle core given a buffer in its form meets the invariant again (R100). -/
theorem inv_of_loaded {s : State} {b : Bits} (h : Inv s) (idle : s.running = .idle)
    (hb : Memory.wf s.cfg.maxBits 4 b = true) :
    Inv (State.succeed { s with buf := b, pos := 0, tree := none, warn := false }) := by
  obtain ⟨frames, npkt, acc⟩ := h.idle idle
  exact ⟨⟨Nat.zero_le _, hb⟩, h.output, h.ret, nofun, ⟨nofun, fun _ => rfl⟩, ⟨fun _ => rfl, Nat.zero_le _⟩, nofun,
    h.idle, by rw [frames]; rfl, h.npkt⟩

/-- LOADHEX keeps the invariant of an idle core (R100). -/
theorem loadHex_inv (text : List Char) {s : State} (h : Inv s) (idle : s.running = .idle) :
    Inv (loadHex text s) := by
  have form := loadHex_buf_wf text s
  unfold loadHex at form ⊢
  split
  · rename_i e
    exact inv_takeError (inv_of_loaded h idle rfl) (scanHex_error_legal e)
  · rename_i e
    exact inv_of_loaded h idle (by simpa [e] using form)

/-- A number POP may read is in RET's range (R31, R102). -/
theorem memRead_lt (b : Bits) (pos n : Nat) : memRead b pos n < 2 ^ n :=
  lt_of_lt_of_le (val_lt _) (Nat.pow_le_pow_right (by decide) (List.length_take_le _ _))

/-- POP keeps the invariant (R102). -/
theorem popCommand_inv (n : Nat) {s : State} (h : Inv s) : Inv (popCommand n s) := by
  unfold popCommand
  split
  · exact inv_takeError (row := .pop) (inv_succeed h) (by decide)
  · rename_i range
    split
    · exact inv_takeError (row := .pop) (inv_succeed h) (by decide)
    · rename_i e
      obtain ⟨left, rfl, rfl⟩ := popBits_eq_some.mp e
      have inside : s.pos + n ≤ s.len := by
        have := h.cursor.1; unfold State.remaining at left; omega
      have ret : memRead s.buf s.pos n ≤ max (2 ^ s.cfg.popMax - 1) s.cfg.maxBits :=
        le_max_of_le_left (Nat.le_sub_one_of_lt
          (lt_of_lt_of_le (memRead_lt ..) (Nat.pow_le_pow_right (by decide) (by omega))))
      exact inv_succeed ⟨⟨inside, h.cursor.2⟩, h.output, ret, h.err, h.errSub, h.errPos, h.tree, h.idle,
        framesFit_of_le (Nat.le_add_right _ _) h.frames, h.npkt⟩

/-- REMAINING keeps the invariant (R103). -/
theorem remainingCommand_inv {s : State} (h : Inv s) : Inv (remainingCommand s) := by
  have ret : s.remaining ≤ max (2 ^ s.cfg.popMax - 1) s.cfg.maxBits := by
    have form := h.cursor.2
    simp only [Memory.wf, Bool.and_eq_true, decide_eq_true_eq] at form
    unfold State.remaining State.len; omega
  exact inv_succeed ⟨h.cursor, h.output, ret, h.err, h.errSub, h.errPos, h.tree, h.idle, h.frames, h.npkt⟩

/-- An output in its form keeps the invariant (R32). -/
theorem inv_of_output {s : State} {b : Bits} (h : Inv s) (form : Memory.wf s.cfg.maxBits 8 b = true) :
    Inv { s with out := b } :=
  ⟨h.cursor, form, h.ret, h.err, h.errSub, h.errPos, h.tree, h.idle, h.frames, h.npkt⟩

/-- ENCODE keeps the invariant (R160). -/
theorem encodeCommand_inv (p : Packet) {s : State} (h : Inv s) : Inv (encodeCommand p s) := by
  have form := encodeCommand_out_wf p s
  unfold encodeCommand at form ⊢
  rcases encoded_cases s.cfg p with ⟨r, legal, e⟩ | ⟨-, b, -, -, -, e⟩ <;> rw [e] at form ⊢
  · exact inv_takeError (row := .encode) (inv_succeed (inv_of_output h rfl)) legal
  · exact inv_succeed (inv_of_output h form)

/-- Every command keeps the invariant of an idle core. -/
theorem command_inv (c : Command) {s : State} (h : Inv s) (idle : s.running = .idle) : Inv (command c s) := by
  cases c with
  | loadHex text => exact loadHex_inv text h idle
  | pop n => exact popCommand_inv n h
  | remaining => exact remainingCommand_inv h
  | decode => exact inv_beginDecode h
  | decodeOuter text =>
    simp only [command, decodeOuterCommand]
    split
    · exact inv_beginDecode (loadHex_inv text h idle)
    · exact loadHex_inv text h idle
  | encode p => exact encodeCommand_inv p h

/-- Reset meets the invariant (R41). -/
theorem afterReset_inv (cfg : Config) (pending : List HostMove) : Inv (State.afterReset cfg pending) := by
  obtain ⟨buf, out⟩ := afterReset_buf_wf cfg pending 4
  refine ⟨⟨le_rfl, buf⟩, (afterReset_buf_wf cfg pending 8).2, Nat.zero_le _, nofun, ⟨nofun, fun _ => rfl⟩,
    ⟨fun _ => rfl, le_rfl⟩, nofun, fun _ => ⟨rfl, rfl, rfl⟩, rfl, rfl, ?_⟩
  cases h : cfg.maxPackets <;> simp [State.afterReset, passes, h]

/-- What an idle core does with the host's next move keeps the invariant. -/
theorem serve_inv {s : State} (h : Inv s) (idle : s.running = .idle) : Inv (serve s) := by
  rcases serve_cases s with ⟨-, e⟩ | ⟨c, rest, -, e⟩ | ⟨rest, -, e⟩ <;> rw [e]
  · exact h
  · exact command_inv c (s := { s with pending := rest })
      ⟨h.cursor, h.output, h.ret, h.err, h.errSub, h.errPos, h.tree, h.idle, h.frames, h.npkt⟩ idle
  · exact afterReset_inv s.cfg rest

/-- Every step keeps the invariant. -/
theorem step_inv {s t : State} (h : Inv s) (e : step s = .next t) : Inv t := by
  have left : s.trailing.length = s.len - s.pos := List.length_drop
  have inside : s.pos ≤ s.len := h.cursor.1
  rcases step_cases s with ⟨idle, es⟩ | ⟨running, ⟨i, rest, d, es⟩ | ⟨offset, d, es⟩⟩ <;> rw [e] at es
  · cases es; exact serve_inv h idle
  · have := decode_length d
    exact exec_inv h running (by omega) es.symm
  · have := decode_error_offset d
    cases es; exact truncated_inv h (by omega)

end Sys2Proof.Machine

/-- Settles O25: an idle core's move, an instruction and a truncated packet each keep the invariant. -/
theorem stepKeepsTheInvariant : Obligations.StepKeepsTheInvariant :=
  fun _ _ => Sys2Proof.Machine.step_inv

/-- Settles O26. -/
theorem resetMeetsTheInvariant : Obligations.ResetMeetsTheInvariant :=
  ⟨Sys2Proof.Machine.afterReset_inv .., Sys2Proof.Machine.afterReset_inv⟩

/-- Settles O27: the reset event puts afterReset's record in the state's place. -/
theorem resetLeavesTheStatedValues : Obligations.ResetLeavesTheStatedValues := by
  refine ⟨by decide, fun s rest idle pending => ⟨Sys2Proof.Machine.State.afterReset s.cfg rest, ?_, ?_⟩⟩
  · simp [Sys2Proof.Machine.step, Sys2Proof.Machine.serve, idle, pending]
  · simp [Sys2Proof.Machine.State.afterReset]
end

section
/-! PROOF. What a step of a decode can do to the registers, said once, and the rules of the whole machine that follow
from it and from each command's frame (R28, R30, R40, R62, R139). -/

namespace Sys2Proof.Machine

/-- Where a step of a decode leads from s: POS has not moved back, and either the decode waits for its next packet, only
POS and the transient fields having changed, or it has ended with a tree, or with an error. -/
inductive DecodeStep (s : State) : State → Prop where
  | waits (pos npkt acc : Nat) (frames : List Frame) : s.pos ≤ pos →
    DecodeStep s { s with pos := pos, npkt := npkt, acc := acc, frames := frames }
  | succeeds (p : Packet) (pos : Nat) : s.pos ≤ pos → DecodeStep s (decodeSuccess p pos s)
  | fails (e : Err) (sub : ErrSub) (pos : Nat) : s.pos ≤ pos → DecodeStep s (decodeFailure e sub pos s)

/-- Completing a packet further on is a step of the decode. -/
theorem Settled.decodeStep {s t : State} {pos npkt acc : Nat}
    (h : Settled { s with pos := pos, npkt := npkt, acc := acc } t) (hp : s.pos ≤ pos) : DecodeStep s t := by
  rcases h with ⟨fs, -, rfl⟩ | ⟨p, rfl⟩ | rfl | rfl
  · exact .waits pos npkt acc fs hp
  · exact .succeeds p pos hp
  · exact .fails _ _ pos hp
  · exact .fails _ _ pos hp

/-- Reading a Literal's groups further on is a step of the decode. -/
theorem GroupsEnd.decodeStep {version : Version} {s t : State} {pos npkt acc : Nat}
    (h : GroupsEnd version { s with pos := pos, npkt := npkt, acc := acc } t) (hp : s.pos ≤ pos) :
    DecodeStep s t := by
  obtain ⟨pos', hpos, ends⟩ := h
  have hp' : s.pos ≤ pos' := le_trans hp hpos
  rcases ends with ⟨value, -, -, rfl⟩ | ⟨-, rfl⟩ | ⟨-, rfl⟩
  · exact Settled.decodeStep (acc := 0) (deliver_settles ..) hp'
  · exact .fails _ _ pos' hp'
  · exact .fails _ _ pos' hp'

/-- Every instruction is a step of the decode. -/
theorem exec_decodeStep {i : Instr} {s t : State} (e : exec i s = .next t) : DecodeStep s t := by
  obtain ⟨u, eu, c⟩ := exec_cases i s
  rw [e] at eu; cases eu
  rcases c with ⟨sub, -, rfl⟩ | ⟨-, r⟩
  · exact .fails _ _ s.pos le_rfl
  · cases r with
    | literal version more chunk =>
      exact (afterFirstChunk_ends (s := { s with pos := s.pos + 11, npkt := s.npkt + 1, acc := 0 }) ..).decodeStep
        (Nat.le_add_right ..)
    | total _ version type n =>
      exact (resume_settles { s with pos := s.pos + 22, npkt := s.npkt + 1 } _ _).decodeStep (Nat.le_add_right ..)
    | count _ version type n =>
      exact (resume_settles { s with pos := s.pos + 18, npkt := s.npkt + 1 } _ _).decodeStep (Nat.le_add_right ..)

/-- A truncated packet is a step of the decode. -/
theorem truncated_decodeStep (offset : Nat) (s : State) : DecodeStep s (truncated offset s) := by
  rcases truncated_cases offset s with ⟨sub, -, e⟩ | ⟨-, e⟩ <;> rw [e]
  · exact .fails _ _ s.pos le_rfl
  · exact .fails _ _ _ (Nat.le_add_right ..)

/-- What every step is, by what the core was doing: nothing, a command, a reset, or a step of the decode. -/
inductive StepKind (s : State) : State → Prop where
  | holds : s.running = .idle → s.pending = [] → StepKind s s
  | serves (c : Command) (rest : List HostMove) (t : State) : s.running = .idle → s.pending = .issue c :: rest →
    CommandFrame c { s with pending := rest } t → StepKind s t
  | resets (rest : List HostMove) : s.running = .idle → s.pending = .reset :: rest →
    StepKind s (State.afterReset s.cfg rest)
  | decodes (t : State) : s.running ≠ .idle → DecodeStep s t → StepKind s t

theorem step_kind {s t : State} (e : step s = .next t) : StepKind s t := by
  rcases step_cases s with ⟨idle, es⟩ | ⟨running, ⟨i, rest, -, es⟩ | ⟨offset, -, es⟩⟩ <;> rw [e] at es
  · cases es
    rcases serve_cases s with ⟨p, es⟩ | ⟨c, rest, p, es⟩ | ⟨rest, p, es⟩ <;> rw [es]
    · exact .holds idle p
    · exact .serves c rest _ idle p (command_frame ..)
    · exact .resets rest idle p
  · exact .decodes t running (exec_decodeStep es.symm)
  · cases es; exact .decodes _ running (truncated_decodeStep ..)

/-- One of the bits from POS on is 1. -/
theorem any_drop_iff {b : Bits} {pos : Nat} :
    (b.drop pos).any id = true ↔ ∃ a, pos ≤ a ∧ a < b.length ∧ bitAt b a = some true := by
  simp only [List.any_eq_true, List.mem_iff_getElem?, List.getElem?_drop, bitAt, id]
  constructor
  · rintro ⟨_, ⟨k, hk⟩, rfl⟩
    exact ⟨pos + k, Nat.le_add_right .., (List.getElem?_eq_some_iff.mp hk).1, hk⟩
  · rintro ⟨a, hp, -, ha⟩
    exact ⟨true, ⟨a - pos, by rwa [Nat.add_sub_cancel' hp]⟩, rfl⟩

end Sys2Proof.Machine

open Sys2Proof Sys2Proof.Machine

/-- Settles O9, by the three ways a step of a decode can go. -/
theorem everyInstructionKeepsItsFrame : Obligations.EveryInstructionKeepsItsFrame := by
  intro i s t e
  cases exec_decodeStep e with
  | waits pos npkt acc frames hp => simp [hp]
  | succeeds p pos hp => simp [decodeSuccess, hp]
  | fails e sub pos hp => simp [decodeFailure, hp]

/-- Settles O49: a decode writes none of the three, a command those of its frame. -/
theorem onlyTheNamedCommandsWriteTheBuffers : Obligations.OnlyTheNamedCommandsWriteTheBuffers := by
  intro s t e
  cases step_kind e with
  | holds idle pending => simp
  | serves c rest _ idle pending frame =>
    obtain ⟨cfg, -, buf, -, out, ret, -⟩ := frame
    refine ⟨cfg, fun h => ⟨idle, rest, ?_⟩, fun h => ⟨idle, rest, ?_⟩, fun h => ⟨idle, rest, ?_⟩⟩
    · rcases buf.resolve_left h with ⟨text, rfl⟩ | ⟨text, rfl⟩ <;> simp [pending]
    · obtain ⟨p, rfl⟩ := out.resolve_left h; simp [pending]
    · rcases ret.resolve_left h with ⟨n, rfl⟩ | rfl <;> simp [pending]
  | resets rest idle pending => simp [State.afterReset, idle, pending]
  | decodes _ running d => cases d <;> simp [decodeSuccess, decodeFailure]

/-- Settles O50: a decode only moves POS on. -/
theorem posMovesBackOnlyAtALoad : Obligations.PosMovesBackOnlyAtALoad := by
  intro s t e back
  cases step_kind e with
  | holds idle pending => exact absurd back (lt_irrefl _)
  | serves c rest _ idle pending frame =>
    obtain ⟨zero, load⟩ := frame.pos.resolve_left (not_le.mpr back)
    refine ⟨zero, idle, rest, ?_⟩
    rcases load with ⟨text, rfl⟩ | ⟨text, rfl⟩ <;> simp [pending]
  | resets rest idle pending => exact ⟨rfl, idle, rest, .inr (.inr pending)⟩
  | decodes _ running d => cases d with | _ => exact absurd back (not_lt.mpr ‹_›)

/-- Settles O51: only the success of a DECODEOUTER computes WARN. -/
theorem warnRisesOnlyAfterAnOuterDecode : Obligations.WarnRisesOnlyAfterAnOuterDecode := by
  intro s t e low high
  cases step_kind e with
  | holds idle pending => simp [low] at high
  | serves c rest _ idle pending frame => exact absurd (frame.warn high) (by simp [low])
  | resets rest idle pending => cases high
  | decodes _ running d =>
    cases d with
    | waits pos npkt acc frames hp => simp [low] at high
    | fails e sub pos hp => simp [decodeFailure, low] at high
    | succeeds p pos hp =>
      simp only [decodeSuccess] at high
      split at high
      · rename_i outer
        rw [Bool.or_eq_true, decide_eq_true_eq, any_drop_iff] at high
        exact ⟨outer, rfl, rfl, nofun, high⟩
      · simp [low] at high
end

section
/-! PROOF. The companions: they ignore every mode (R24, R186), and they have a value on well-formed trees (R180). -/

namespace Sys2Proof.Machine

mutual

theorem companions_of_semEq : ∀ {p q : Packet}, semEq p q = true →
    evaluate p = evaluate q ∧ versionSum p = versionSum q
  | .lit _ _, .lit _ _, h => by
    simp only [semEq, Bool.and_eq_true, decide_eq_true_eq] at h
    obtain ⟨rfl, rfl⟩ := h
    exact ⟨rfl, rfl⟩
  | .op _ _ _ cs, .op _ _ _ ds, h => by
    simp only [semEq, Bool.and_eq_true, decide_eq_true_eq] at h
    obtain ⟨⟨rfl, rfl⟩, hs⟩ := h
    obtain ⟨length, values, versions⟩ := companionsAll_of_semEqAll hs
    simp only [evaluate, versionSum, length, values, versions, and_self]
  | .lit _ _, .op _ _ _ _, h => by simp [semEq] at h
  | .op _ _ _ _, .lit _ _, h => by simp [semEq] at h

theorem companionsAll_of_semEqAll : ∀ {cs ds : Packets}, semEqAll cs ds = true →
    Packets.length cs = Packets.length ds ∧ evaluateAll cs = evaluateAll ds ∧ versionSumAll cs = versionSumAll ds
  | .nil, .nil, _ => ⟨rfl, rfl, rfl⟩
  | .cons c cs, .cons d ds, h => by
    simp only [semEqAll, Bool.and_eq_true] at h
    obtain ⟨value, version⟩ := companions_of_semEq h.1
    obtain ⟨length, values, versions⟩ := companionsAll_of_semEqAll h.2
    simp only [Packets.length, evaluateAll, versionSumAll, value, version, length, values, versions, and_self]
  | .nil, .cons _ _, h => by simp [semEqAll] at h
  | .cons _ _, .nil, h => by simp [semEqAll] at h

end

/-- A number of values the arity check admits has a combination (R181 to R183). -/
theorem combine_of_arityOk {t : PacketType} (ht : t ≠ .literal) {xs : List Nat} (ok : arityOk t xs.length = true) :
    ∃ n, combine t xs = .value n := by
  cases t with
  | literal => exact absurd rfl ht
  | greaterThan | lessThan | equalTo =>
    have two : xs ≠ [] ∧ xs.length = 2 := by simpa [arityOk, comparison] using ok
    obtain ⟨a, b, rfl⟩ := List.length_eq_two.mp two.2
    exact ⟨_, rfl⟩
  | sum | product | minimum | maximum =>
    obtain ⟨x, xs, rfl⟩ := List.exists_cons_of_ne_nil (l := xs) (by simpa [arityOk, comparison] using ok)
    exact ⟨_, rfl⟩

mutual

theorem evaluate_of_wf : ∀ {p : Packet}, wf p = true → ∃ n, evaluate p = .value n
  | .lit _ value, _ => ⟨value, rfl⟩
  | .op _ t _ cs, h => by
    simp only [wf, Bool.and_eq_true, decide_eq_true_eq] at h
    obtain ⟨⟨ht, ok⟩, children⟩ := h
    obtain ⟨xs, values, length⟩ := evaluateAll_of_wfAll children
    obtain ⟨n, hn⟩ := combine_of_arityOk ht (length ▸ ok)
    exact ⟨n, by simp [evaluate, ht, ok, values, hn]⟩

theorem evaluateAll_of_wfAll : ∀ {cs : Packets}, wfAll cs = true →
    ∃ xs, evaluateAll cs = .ok xs ∧ Packets.length cs = xs.length
  | .nil, _ => ⟨[], rfl, rfl⟩
  | .cons c cs, h => by
    simp only [wfAll, Bool.and_eq_true] at h
    obtain ⟨n, value⟩ := evaluate_of_wf h.1
    obtain ⟨xs, values, length⟩ := evaluateAll_of_wfAll h.2
    exact ⟨n :: xs, by simp [evaluateAll, value, values], by simp [Packets.length, length]⟩

end

end Sys2Proof.Machine

open Sys2Proof Sys2Proof.Machine

/-- Settles O45, by induction on the two trees. -/
theorem companionsRespectSemanticEquality : Obligations.CompanionsRespectSemanticEquality :=
  fun _ _ => companions_of_semEq

/-- Settles O46: the children of a well-formed operator have values, of the number its type combines. -/
theorem evaluateIsTotalOnWellFormedTrees : Obligations.EvaluateIsTotalOnWellFormedTrees := by
  refine ⟨fun _ => evaluate_of_wf, fun v t m cs ht bad => ?_⟩
  have refused : arityOk t (Packets.length cs) = false := by
    rcases bad with none | ⟨compares, notTwo⟩
    · simp [arityOk, none]
    · simp [arityOk, compares, notTwo]
  simp [evaluate, ht, refused]
end

section
/-! PROOF. The byte view (R52): which bit of a value each bit of the buffer is. -/

namespace Sys2Proof.Machine

/-- Element k of `bits(v, n)` is bit n-1-k of v (R9). -/
theorem getElem?_bitsOf {v n k : Nat} (h : k < n) : (bitsOf v n)[k]? = some (v.testBit (n - 1 - k)) := by
  induction n generalizing k with
  | zero => omega
  | succ n ih =>
    cases k with
    | zero => rfl
    | succ k =>
      rw [bitsOf, List.getElem?_cons_succ, ih (by omega)]
      congr 2; omega

/-- Bit j of a number read from n bits is bit n-1-j of them, the first of weight 2^(n-1) (R9, R50). -/
theorem testBit_memRead {b : Bits} {pos n j : Nat} (hn : pos + n ≤ b.length) (hj : j < n) :
    b[pos + (n - 1 - j)]? = some ((memRead b pos n).testBit j) := by
  have length : ((b.drop pos).take n).length = n := by simp; omega
  have bits : bitsOf (memRead b pos n) n = (b.drop pos).take n := by
    have := bitsOf_val ((b.drop pos).take n)
    rwa [length] at this
  calc b[pos + (n - 1 - j)]?
      = ((b.drop pos).take n)[n - 1 - j]? := by rw [List.getElem?_take_of_lt (by omega), List.getElem?_drop]
    _ = some ((memRead b pos n).testBit (n - 1 - (n - 1 - j))) := by rw [← bits, getElem?_bitsOf (by omega)]
    _ = some ((memRead b pos n).testBit j) := by congr 2; omega

end Sys2Proof.Machine

open Sys2Proof Sys2Proof.Machine

/-- Settles O35: each view reads the buffer at 8k, its first bit the heaviest. -/
theorem byteViewNumbersTheBits : Obligations.ByteViewNumbersTheBits := by
  intro b
  refine ⟨fun a x => ?_, fun k j => ?_, fun k n h => ?_, fun k n h => ?_, fun k => ?_, fun k => ?_⟩
  · have address : 8 * (a / 8) + (7 - (7 - a % 8)) = a := by omega
    rw [byteBit_eq_some, address, bitAt]
    exact and_iff_right (by omega)
  · simp [Option.isSome_iff_exists, byteBit_eq_some, List.getElem?_eq_some_iff]
  · obtain ⟨whole, rfl⟩ := byteView_eq_some.mp h
    exact ⟨memRead_lt b _ 8, fun j hj => byteBit_eq_some.mpr ⟨hj, testBit_memRead whole hj⟩⟩
  · obtain ⟨half, rfl⟩ := highNibble_eq_some.mp h
    refine ⟨memRead_lt b _ 4, fun j hj => byteBit_eq_some.mpr ⟨by omega, ?_⟩⟩
    rw [← testBit_memRead half hj]
    congr 2; omega
  · simp [Option.isSome_iff_exists, byteView_eq_some]
  · simp [Option.isSome_iff_exists, highNibble_eq_some]
end

section
/-! PROOF. When a packet, and a list of children, is within the ceilings from where it is entered (R25, R26, R121,
R140): what validation checks, and what the decoder delivers. -/

namespace Sys2Proof.Machine

/-- p, entered at depth d with NPKT npkt, is well formed and within every ceiling, NPKT being n after it. -/
structure Fits (cfg : Config) (d npkt : Nat) (p : Packet) (n : Nat) : Prop where
  wf : wf p = true
  values : valuesFit cfg.valueBits p = true
  depth : passes (d + depth p - 1) cfg.maxDepth = false
  nodes : n = npkt + nodes p
  count : passes n cfg.maxPackets = false

/-- `Fits` of a list of children entered at depth d, one after another. -/
structure FitsAll (cfg : Config) (d npkt : Nat) (cs : Packets) (n : Nat) : Prop where
  wf : wfAll cs = true
  values : valuesFitAll cfg.valueBits cs = true
  depth : passes (d + depthAll cs - 1) cfg.maxDepth = false
  nodes : n = npkt + nodesAll cs
  count : passes n cfg.maxPackets = false

/-- `entry` answers one packet more, when neither ceiling refuses it (R121). -/
theorem entry_eq_ok {cfg : Config} {d npkt n : Nat} : entry cfg d npkt = .ok n ↔
    passes d cfg.maxDepth = false ∧ passes n cfg.maxPackets = false ∧ n = npkt + 1 := by
  rcases entry_cases cfg d npkt with ⟨h, e⟩ | ⟨h, h', e⟩ | ⟨h, h', e⟩ <;> rw [e]
  · simp [h]
  · simp only [reduceCtorEq, false_iff]; rintro ⟨-, hn, rfl⟩; simp [h'] at hn
  · simp only [Except.ok.injEq, h, true_and]
    exact ⟨fun e => e ▸ ⟨h', rfl⟩, fun e => e.2.symm⟩

/-- A Literal fits when it may be entered and is within VALUE_BITS. -/
theorem fits_lit {cfg : Config} {d npkt n value : Nat} {v : Version} : Fits cfg d npkt (.lit v value) n ↔
    entry cfg d npkt = .ok n ∧ tooWide value cfg.valueBits = false := by
  rw [entry_eq_ok]
  constructor
  · rintro ⟨-, values, deep, nodes, count⟩
    exact ⟨⟨deep, count, nodes⟩, by simpa [valuesFit] using values⟩
  · rintro ⟨⟨deep, count, nodes⟩, narrow⟩
    exact ⟨rfl, by simpa [valuesFit] using narrow, deep, nodes, count⟩

/-- An operator fits when its type and number of children are right and its children fit one level deeper. -/
theorem fits_op {cfg : Config} {d npkt n : Nat} {v : Version} {t : PacketType} {m : LengthMode} {cs : Packets} :
    Fits cfg d npkt (.op v t m cs) n ↔
      t ≠ .literal ∧ arityOk t (Packets.length cs) = true ∧ FitsAll cfg (d + 1) (npkt + 1) cs n := by
  have level : d + (1 + depthAll cs) - 1 = d + 1 + depthAll cs - 1 := by omega
  constructor
  · rintro ⟨wf, values, deep, nodes, count⟩
    simp only [Machine.wf, Bool.and_eq_true, decide_eq_true_eq] at wf
    exact ⟨wf.1.1, wf.1.2, wf.2, values, level ▸ deep, by simp only [Machine.nodes] at nodes; omega, count⟩
  · rintro ⟨type, arity, wf, values, deep, nodes, count⟩
    exact ⟨by simp [Machine.wf, type, arity, wf], values, level ▸ deep, by simp only [Machine.nodes]; omega, count⟩

/-- An operator whose children fit may itself be entered. -/
theorem FitsAll.entry {cfg : Config} {d npkt n : Nat} {cs : Packets} (h : FitsAll cfg (d + 1) (npkt + 1) cs n) :
    entry cfg d npkt = .ok (npkt + 1) := by
  obtain ⟨-, -, deep, nodes, count⟩ := h
  exact entry_eq_ok.mpr ⟨passes_mono (by omega) deep, passes_mono (by omega) count, rfl⟩

theorem fitsAll_nil {cfg : Config} {d npkt n : Nat} : FitsAll cfg d npkt .nil n ↔
    passes (d - 1) cfg.maxDepth = false ∧ passes npkt cfg.maxPackets = false ∧ n = npkt := by
  constructor
  · rintro ⟨-, -, deep, rfl, count⟩; exact ⟨deep, count, rfl⟩
  · rintro ⟨deep, count, rfl⟩; exact ⟨rfl, rfl, deep, rfl, count⟩

theorem passes_depth_max {cfg : Config} {d m n : Nat} : passes (d + max m n - 1) cfg.maxDepth =
    (passes (d + m - 1) cfg.maxDepth || passes (d + n - 1) cfg.maxDepth) := by
  rw [← passes_max]; congr 1; omega

/-- Children fit when the first does, and then the others, NPKT counting on. -/
theorem fitsAll_cons {cfg : Config} {d npkt n : Nat} {c : Packet} {cs : Packets} :
    FitsAll cfg d npkt (.cons c cs) n ↔ ∃ k, Fits cfg d npkt c k ∧ FitsAll cfg d k cs n := by
  constructor
  · rintro ⟨wf, values, deep, nodes, count⟩
    simp only [wfAll, valuesFitAll, depthAll, nodesAll, passes_depth_max, Bool.and_eq_true, Bool.or_eq_false_iff]
      at wf values deep nodes
    exact ⟨_, ⟨wf.1, values.1, deep.1, rfl, passes_mono (by omega) count⟩, wf.2, values.2, deep.2, by omega, count⟩
  · rintro ⟨k, ⟨wf, values, deep, rfl, -⟩, wfs, valuess, deeps, nodes, count⟩
    exact ⟨by simp [wfAll, wf, wfs], by simp [valuesFitAll, values, valuess],
      by simp [depthAll, passes_depth_max, deep, deeps], by simp only [nodesAll]; omega, count⟩

/-- One more child that fits. -/
theorem FitsAll.snoc {cfg : Config} {d npkt k n : Nat} {c : Packet} {cs : Packets} (hs : FitsAll cfg d npkt cs k)
    (h : Fits cfg d k c n) : FitsAll cfg d npkt (Packets.snoc cs c) n := by
  obtain ⟨wfs, valuess, deeps, rfl, -⟩ := hs
  obtain ⟨wf, values, deep, nodes, count⟩ := h
  exact ⟨by simp [wf, wfs], by simp [values, valuess], by simp [passes_depth_max, deep, deeps],
    by simp only [nodesAll_snoc]; omega, count⟩

mutual

/-- Validation admits the packets that fit (R161). -/
theorem validate_eq_ok {cfg : Config} : ∀ {p : Packet} {d npkt n : Nat},
    validate cfg p d npkt = .ok n ↔ Fits cfg d npkt p n
  | .lit _ value, d, npkt, n => by
    rw [fits_lit, validate]
    cases entry cfg d npkt with
    | error e => simp
    | ok k => cases tooWide value cfg.valueBits <;> simp
  | .op _ t _ cs, d, npkt, n => by
    rw [fits_op, validate]
    cases he : entry cfg d npkt with
    | error e =>
      simp only [reduceCtorEq, false_iff]
      rintro ⟨-, -, fits⟩
      simp [fits.entry] at he
    | ok k =>
      obtain ⟨deep, count, rfl⟩ := entry_eq_ok.mp he
      dsimp only
      split
      · rename_i bad; simp only [reduceCtorEq, false_iff]
        rintro ⟨type, arity, -⟩
        exact bad.elim type (by simp [arity])
      · rename_i good
        simp only [not_or, Bool.not_eq_false] at good
        rw [validateAll_eq_ok deep count]
        exact ⟨fun fits => ⟨good.1, good.2, fits⟩, fun fits => fits.2.2⟩

theorem validateAll_eq_ok {cfg : Config} : ∀ {cs : Packets} {d npkt n : Nat},
    passes d cfg.maxDepth = false → passes npkt cfg.maxPackets = false →
    (validateAll cfg cs (d + 1) npkt = .ok n ↔ FitsAll cfg (d + 1) npkt cs n)
  | .nil, d, npkt, n, deep, count => by
    rw [fitsAll_nil, validateAll]
    simp [deep, count, eq_comm]
  | .cons c cs, d, npkt, n, deep, count => by
    rw [fitsAll_cons, validateAll]
    cases hc : validate cfg c (d + 1) npkt with
    | error e => simp [← validate_eq_ok, hc]
    | ok k =>
      have fits := validate_eq_ok.mp hc
      simp [← validate_eq_ok, hc, validateAll_eq_ok deep fits.count]

end

end Sys2Proof.Machine

open Sys2Proof Sys2Proof.Machine

/-- Settles O39: what fits from depth 1 and NPKT 0 is what a tree within the ceilings is. -/
theorem validationAdmitsTheFittingTrees : Obligations.ValidationAdmitsTheFittingTrees := by
  intro cfg p
  simp only [validate_eq_ok, treeFits, Bool.and_eq_true, Bool.not_eq_true']
  constructor
  · rintro ⟨n, wf, values, deep, rfl, count⟩
    simp only [Nat.zero_add, Nat.add_sub_cancel_left] at deep count
    exact ⟨⟨⟨wf, deep⟩, count⟩, values⟩
  · rintro ⟨⟨⟨wf, deep⟩, count⟩, values⟩
    exact ⟨nodes p, wf, values, by simpa using deep, by simp, count⟩
end

section
/-! PROOF. What the recursive decoder returns (R122 to R137): its reads lie within the buffer, its loops read children
back to back, and what it returns fits the ceilings. -/

namespace Sys2Proof.Machine

/-- Everything `popAt` can answer (R101). -/
theorem popAt_eq_some {buf : Bits} {pos n v : Nat} :
    popAt buf pos n = some v ↔ n ≤ buf.length - pos ∧ v = memRead buf pos n := by
  unfold popAt
  split <;> simp only [Option.some.injEq, reduceCtorEq, false_iff, not_and, eq_comm (a := v)] <;> omega

/-- Calls of `child` back to back, from the children `cs` read so far to `cs'`, POS and NPKT going on from call to
call: what either loop of R125 does when it returns. -/
inductive Reads (child : Nat → Nat → Parse Packet) : Packets → Nat → Nat → Packets → Nat → Nat → Prop where
  | refl (cs : Packets) (pos npkt : Nat) : Reads child cs pos npkt cs pos npkt
  | step {cs cs' : Packets} {p : Packet} {pos npkt pos₁ npkt₁ pos' npkt' : Nat} :
    child pos npkt = .done p pos₁ npkt₁ → Reads child (Packets.snoc cs p) pos₁ npkt₁ cs' pos' npkt' →
    Reads child cs pos npkt cs' pos' npkt'

theorem reads_of_decTotal {child : Nat → Nat → Parse Packet} {total start fuel : Nat} {cs cs' : Packets}
    {pos npkt pos' npkt' : Nat} (h : decTotal child total start fuel cs pos npkt = .done cs' pos' npkt') :
    Reads child cs pos npkt cs' pos' npkt' := by
  have ends {fuel : Nat} {cs : Packets} {pos npkt : Nat} (lacks : ¬ pos - start < total)
      (h : decTotal child total start fuel cs pos npkt = .done cs' pos' npkt') :
      Reads child cs pos npkt cs' pos' npkt' := by
    unfold decTotal at h
    rw [if_neg lacks] at h
    split at h <;> cases h
    exact .refl ..
  induction fuel generalizing cs pos npkt with
  | zero =>
    by_cases lacks : pos - start < total
    · rw [decTotal, if_pos lacks] at h; cases h
    · exact ends lacks h
  | succ fuel ih =>
    by_cases lacks : pos - start < total
    · rw [decTotal, if_pos lacks] at h
      split at h
      · rename_i e; exact .step e (ih h)
      · cases h
      · cases h
    · exact ends lacks h

theorem reads_of_decCount {child : Nat → Nat → Parse Packet} {n : Nat} {cs cs' : Packets}
    {pos npkt pos' npkt' : Nat} (h : decCount child n cs pos npkt = .done cs' pos' npkt') :
    Reads child cs pos npkt cs' pos' npkt' := by
  induction n generalizing cs pos npkt with
  | zero => cases h; exact .refl ..
  | succ n ih =>
    unfold decCount at h
    split at h
    · rename_i e; exact .step e (ih h)
    · cases h
    · cases h

/-- A Literal's groups, when they are read, end within the buffer with a value within VALUE_BITS (R123, R124). -/
theorem decGroups_done {cfg : Config} {buf : Bits} {v : Version} {fuel value pos npkt pos' npkt' : Nat} {p : Packet}
    (h : decGroups cfg buf v fuel value pos npkt = .done p pos' npkt') :
    pos + 5 ≤ pos' ∧ pos' ≤ buf.length ∧ npkt' = npkt ∧
      ∃ value', p = .lit v value' ∧ tooWide value' cfg.valueBits = false := by
  induction fuel generalizing value pos with
  | zero => cases h
  | succ fuel ih =>
    unfold decGroups at h
    split at h
    · cases h
    · split at h
      · cases h
      · rename_i chunk e
        obtain ⟨inside, -⟩ := popAt_eq_some.mp e
        split at h
        · cases h
        · rename_i narrow
          split at h
          · cases h
            exact ⟨le_rfl, by omega, rfl, _, rfl, by simpa using narrow⟩
          · obtain ⟨moved, rest⟩ := ih h
            exact ⟨by omega, rest⟩

/-- What an operator's decoding returns: children read back to back from behind its 22 or 18 bits, of a number its
type admits (R125, R134, R135). -/
theorem decOperator_done {buf : Bits} {child : Nat → Nat → Parse Packet} {fuel pos npkt pos' npkt' : Nat}
    {v : Version} {t : PacketType} {p : Packet}
    (h : decOperator buf child fuel v t pos npkt = .done p pos' npkt') :
    ∃ start mode cs, pos + 12 ≤ start ∧ start ≤ buf.length ∧ Reads child .nil start npkt cs pos' npkt' ∧
      arityOk t (Packets.length cs) = true ∧ p = .op v t mode cs := by
  have close {mode : LengthMode} {children : Parse Packets} (h : decClose v t mode children = .done p pos' npkt') :
      ∃ cs, children = .done cs pos' npkt' ∧ arityOk t (Packets.length cs) = true ∧ p = .op v t mode cs := by
    unfold decClose at h
    split at h
    · split at h <;> cases h
      exact ⟨_, rfl, ‹_›, rfl⟩
    · cases h
    · cases h
  unfold decOperator at h
  split at h
  · cases h
  · split at h <;> split at h
    · cases h
    · rename_i e
      obtain ⟨inside, -⟩ := popAt_eq_some.mp e
      obtain ⟨cs, loop, closes⟩ := close h
      exact ⟨pos + 16, _, cs, by omega, by omega, reads_of_decTotal loop, closes⟩
    · cases h
    · rename_i e
      obtain ⟨inside, -⟩ := popAt_eq_some.mp e
      obtain ⟨cs, loop, closes⟩ := close h
      exact ⟨pos + 12, _, cs, by omega, by omega, reads_of_decCount loop, closes⟩

/-- What `dec` returns: an entered packet, which is a Literal whose groups were read, or an operator whose children
were (R122). -/
theorem dec_done {cfg : Config} {buf : Bits} {fuel d pos npkt pos' npkt' : Nat} {p : Packet}
    (h : dec cfg buf (fuel + 1) d pos npkt = .done p pos' npkt') :
    entry cfg d npkt = .ok (npkt + 1) ∧ ∃ v t,
      (t = .literal ∧ decGroups cfg buf v (buf.length - pos) 0 (pos + 6) (npkt + 1) = .done p pos' npkt' ∨
        t ≠ .literal ∧
          decOperator buf (dec cfg buf fuel (d + 1)) fuel v t (pos + 6) (npkt + 1) = .done p pos' npkt') := by
  unfold dec at h
  split at h
  · cases h
  · rename_i e
    obtain ⟨-, -, rfl⟩ := entry_eq_ok.mp e
    refine ⟨e, ?_⟩
    split at h
    · cases h
    · split at h
      · cases h
      · split at h
        · exact ⟨_, _, .inl ⟨rfl, h⟩⟩
        · exact ⟨_, _, .inr ⟨‹_›, h⟩⟩

/-- Where a call of the decoder ends: at least 11 bits on, within the buffer, with a packet that fits. -/
structure Bounded (cfg : Config) (buf : Bits) (d pos npkt : Nat) (p : Packet) (pos' npkt' : Nat) : Prop where
  consumes : pos + 11 ≤ pos'
  inside : pos' ≤ buf.length
  fits : Fits cfg d npkt p npkt'

/-- Children whose calls are bounded fit together, after those already read, and end within the buffer. -/
theorem Reads.fitsAll {cfg : Config} {buf : Bits} {d pos npkt pos' npkt' : Nat} {child : Nat → Nat → Parse Packet}
    {cs cs' : Packets} (r : Reads child cs pos npkt cs' pos' npkt')
    (bounded : ∀ {pos npkt p pos' npkt'}, child pos npkt = .done p pos' npkt' →
      Bounded cfg buf d pos npkt p pos' npkt')
    {npkt₀ : Nat} (fits : FitsAll cfg d npkt₀ cs npkt) (inside : pos ≤ buf.length) :
    pos ≤ pos' ∧ pos' ≤ buf.length ∧ FitsAll cfg d npkt₀ cs' npkt' := by
  induction r with
  | refl cs pos npkt => exact ⟨le_rfl, inside, fits⟩
  | step e _ ih =>
    obtain ⟨consumes, inside, one⟩ := bounded e
    obtain ⟨moved, rest⟩ := ih (fits.snoc one) inside
    exact ⟨by omega, rest⟩

/-- Every call of the decoder that returns is bounded, by induction on its fuel (R137, R140). -/
theorem dec_bounded {cfg : Config} {buf : Bits} {fuel d pos npkt pos' npkt' : Nat} {p : Packet}
    (h : dec cfg buf fuel d pos npkt = .done p pos' npkt') : Bounded cfg buf d pos npkt p pos' npkt' := by
  induction fuel generalizing d pos npkt p pos' npkt' with
  | zero => cases h
  | succ fuel ih =>
    obtain ⟨entered, v, t, ⟨-, groups⟩ | ⟨type, operator⟩⟩ := dec_done h
    · obtain ⟨moved, inside, rfl, value, rfl, narrow⟩ := decGroups_done groups
      exact ⟨by omega, inside, fits_lit.mpr ⟨entered, narrow⟩⟩
    · obtain ⟨deep, count, -⟩ := entry_eq_ok.mp entered
      obtain ⟨start, mode, cs, behind, inside, children, arity, rfl⟩ := decOperator_done operator
      obtain ⟨moved, inside', fits⟩ := children.fitsAll ih (fitsAll_nil.mpr ⟨deep, count, rfl⟩) inside
      exact ⟨by omega, inside', fits_op.mpr ⟨type, arity, fits⟩⟩

end Sys2Proof.Machine

open Sys2Proof Sys2Proof.Machine

/-- Settles O21. -/
theorem decodedPacketIsWithinItsBounds : Obligations.DecodedPacketIsWithinItsBounds := by
  intro cfg buf fuel d pos npkt p pos' npkt' h
  obtain ⟨consumes, inside, wf, values, deep, nodes, count⟩ := dec_bounded h
  exact ⟨consumes, inside, wf, values, nodes, count, deep⟩
end

section
/-! PROOF. The round trip of R168 (a), (b): the recursive decoder reads back what the encoder writes. -/

namespace Sys2Proof.Machine

/-! ### The tree that comes back -/

mutual

/-- p with the modes its encoding has under `policy` (R162). -/
def withModes (policy : EncPolicy) : Packet → Packet
  | .lit v value => .lit v value
  | .op v t m cs => .op v t (effectiveMode policy m) (withModesAll policy cs)

/-- `withModes` of every child. -/
def withModesAll (policy : EncPolicy) : Packets → Packets
  | .nil => .nil
  | .cons c cs => .cons (withModes policy c) (withModesAll policy cs)

end

@[simp] theorem length_withModesAll (policy : EncPolicy) : ∀ cs : Packets,
    Packets.length (withModesAll policy cs) = Packets.length cs
  | .nil => rfl
  | .cons _ cs => congrArg (· + 1) (length_withModesAll policy cs)

mutual

theorem semEq_withModes (policy : EncPolicy) : ∀ p : Packet, semEq (withModes policy p) p = true
  | .lit _ _ => by simp [withModes, semEq]
  | .op _ _ _ cs => by simp [withModes, semEq, semEqAll_withModesAll policy cs]

theorem semEqAll_withModesAll (policy : EncPolicy) : ∀ cs : Packets, semEqAll (withModesAll policy cs) cs = true
  | .nil => rfl
  | .cons c cs => by simp [withModesAll, semEqAll, semEq_withModes policy c, semEqAll_withModesAll policy cs]

end

mutual

theorem withModes_retain : ∀ p : Packet, withModes .retain p = p
  | .lit _ _ => rfl
  | .op _ _ _ cs => by simp [withModes, effectiveMode, withModesAll_retain cs]

theorem withModesAll_retain : ∀ cs : Packets, withModesAll .retain cs = cs
  | .nil => rfl
  | .cons c cs => by simp [withModesAll, withModes_retain c, withModesAll_retain cs]

end

mutual

theorem modesAre_forceCount : ∀ p : Packet, modesAre .immediateCount (withModes .forceCount p) = true
  | .lit _ _ => rfl
  | .op _ _ _ cs => by simp [withModes, modesAre, effectiveMode, modesAreAll_forceCount cs]

theorem modesAreAll_forceCount : ∀ cs : Packets,
    modesAreAll .immediateCount (withModesAll .forceCount cs) = true
  | .nil => rfl
  | .cons c cs => by simp [withModesAll, modesAreAll, modesAre_forceCount c, modesAreAll_forceCount cs]

end

/-- `cs` followed by `ds`. -/
def appendAll : Packets → Packets → Packets
  | .nil, ds => ds
  | .cons c cs, ds => .cons c (appendAll cs ds)

theorem appendAll_nil : ∀ cs : Packets, appendAll cs .nil = cs
  | .nil => rfl
  | .cons c cs => congrArg (Packets.cons c) (appendAll_nil cs)

theorem appendAll_snoc (c : Packet) (ds : Packets) : ∀ cs : Packets,
    appendAll (Packets.snoc cs c) ds = appendAll cs (.cons c ds)
  | .nil => rfl
  | .cons b cs => congrArg (Packets.cons b) (appendAll_snoc c ds cs)

/-! ### Fields and groups at a position -/

/-- A field that stands at a position is popped, and what follows it then stands behind it (R101). -/
theorem popAt_of_drop {buf x rest : Bits} {pos n : Nat} (h : buf.drop pos = x ++ rest) (hx : x.length = n) :
    popAt buf pos n = some (val x) ∧ buf.drop (pos + n) = rest := by
  have left := congrArg List.length h
  simp only [List.length_drop, List.length_append] at left
  exact ⟨popAt_eq_some.mpr ⟨by omega, by simp [memRead, h, ← hx]⟩, by simp [← List.drop_drop, h, ← hx]⟩

/-- The groups of a Literal's chunks are read back as their value (R72, R78, R123). -/
theorem decGroups_of_groups {cfg : Config} {buf rest : Bits} {v : Version} {npkt : Nat} {ds : List Nat} (hne : ds ≠ [])
    (small : ∀ d ∈ ds, d < 16) {fuel start pos : Nat} (h : buf.drop pos = groups ds ++ rest)
    (fuelled : ds.length ≤ fuel) (narrow : tooWide (valueOf start ds) cfg.valueBits = false) :
    decGroups cfg buf v fuel start pos npkt = .done (.lit v (valueOf start ds)) (pos + 5 * ds.length) npkt := by
  induction ds generalizing fuel start pos with
  | nil => exact absurd rfl hne
  | cons d ds ih =>
    obtain ⟨fuel, rfl⟩ := Nat.exists_eq_succ_of_ne_zero (Nat.ne_zero_of_lt fuelled)
    rw [groups_cons, groupBits, List.append_assoc, List.cons_append] at h
    obtain ⟨flag, h₁⟩ := popAt_of_drop (x := [decide (ds ≠ [])]) (n := 1) h rfl
    obtain ⟨chunk, h₂⟩ := popAt_of_drop (x := bitsOf d 4) (n := 4) h₁ (by simp)
    have hd : val (bitsOf d 4) = d := val_bitsOf (small d (by simp))
    have fits : tooWide (start * 16 + d) cfg.valueBits = false := tooWide_mono (le_valueOf _ ds) narrow
    rw [decGroups, flag]; dsimp only
    rw [chunk]; dsimp only
    rw [hd, fits]
    cases ds with
    | nil => rfl
    | cons e ds =>
      have next := ih (pos := pos + 5) (by simp) (fun x hx => small x (.tail d hx)) h₂ (by simpa using fuelled) narrow
      have ends : pos + 5 + 5 * (e :: ds).length = pos + 5 * (d :: e :: ds).length := by
        simp only [List.length_cons]; omega
      rw [ends] at next
      simpa [val, valueOf] using next

/-! ### The digits of a value -/

theorem valueOf_digitsOnto (fuel value : Nat) (tail : List Nat) (h : value < 16 ^ (fuel + 1)) :
    valueOf 0 (digitsOnto fuel value tail) = valueOf value tail := by
  induction fuel generalizing value tail with
  | zero => simp [digitsOnto, valueOf, Nat.mod_eq_of_lt (show value < 16 by simpa using h)]
  | succ fuel ih =>
    unfold digitsOnto
    split
    · simp [valueOf]
    · rw [ih _ _ (by rw [pow_succ] at h; omega)]
      simp only [valueOf, List.foldl_cons]
      congr 1; omega

theorem digitsOnto_lt (fuel value : Nat) (tail : List Nat) (h : ∀ d ∈ tail, d < 16) :
    ∀ d ∈ digitsOnto fuel value tail, d < 16 := by
  have cons {n : Nat} (hn : n < 16) : ∀ d ∈ n :: tail, d < 16 := by simpa [hn] using h
  induction fuel generalizing value tail with
  | zero => exact cons (Nat.mod_lt _ (by decide))
  | succ fuel ih =>
    unfold digitsOnto
    split
    · exact cons ‹_›
    · have next := cons (Nat.mod_lt value (by decide : 16 > 0))
      exact ih _ _ next fun hn => by simpa [hn] using next

theorem digitsOnto_ne_nil (fuel value : Nat) (tail : List Nat) : digitsOnto fuel value tail ≠ [] := by
  induction fuel generalizing value tail with
  | zero => simp [digitsOnto]
  | succ fuel ih =>
    unfold digitsOnto
    split
    · simp
    · exact ih _ _

/-- The digits of a value are its digits (R79). -/
theorem valueOf_digits (value : Nat) : valueOf 0 (digits value) = value := by
  refine valueOf_digitsOnto _ _ [] ?_
  calc value < 2 ^ (value.log2 + 1) := Nat.lt_log2_self
    _ ≤ 16 ^ (value.log2 + 1) := Nat.pow_le_pow_left (by decide) _

theorem digits_lt (value : Nat) : ∀ d ∈ digits value, d < 16 :=
  digitsOnto_lt _ _ [] (by simp)

theorem digits_ne_nil (value : Nat) : digits value ≠ [] :=
  digitsOnto_ne_nil _ _ _

theorem length_groups (ds : List Nat) : (groups ds).length = 5 * ds.length := by
  induction ds with
  | nil => rfl
  | cons d ds ih => rw [groups_cons]; simp [groupBits, ih]; omega

/-! ### The loops of R125 -/

/-- A call that returns moves POS on. -/
def Progress (child : Nat → Nat → Parse Packet) : Prop :=
  ∀ ⦃pos npkt p pos' npkt'⦄, child pos npkt = .done p pos' npkt' → pos < pos'

theorem dec_progress (cfg : Config) (buf : Bits) (fuel d : Nat) : Progress (dec cfg buf fuel d) :=
  fun _ _ _ _ _ h => Nat.lt_of_lt_of_le (by omega) (dec_bounded h).consumes

theorem Reads.le {child : Nat → Nat → Parse Packet} (progress : Progress child) {cs cs' : Packets}
    {pos npkt pos' npkt' : Nat} (r : Reads child cs pos npkt cs' pos' npkt') : pos ≤ pos' := by
  induction r with
  | refl => exact le_rfl
  | step e _ ih => exact le_trans (progress e).le ih

theorem Reads.length_le {child : Nat → Nat → Parse Packet} {cs cs' : Packets} {pos npkt pos' npkt' : Nat}
    (r : Reads child cs pos npkt cs' pos' npkt') : Packets.length cs ≤ Packets.length cs' := by
  induction r with
  | refl => exact le_rfl
  | step _ _ ih => rw [length_snoc] at ih; omega

/-- Children that end exactly at the section's total are what the mode-0 loop reads (R125, R126). -/
theorem decTotal_of_reads {child : Nat → Nat → Parse Packet} (progress : Progress child) {cs cs' : Packets}
    {pos npkt pos' npkt' : Nat} (r : Reads child cs pos npkt cs' pos' npkt') {start fuel : Nat} (hs : start ≤ pos)
    (fuelled : pos' - pos ≤ fuel) :
    decTotal child (pos' - start) start fuel cs pos npkt = .done cs' pos' npkt' := by
  induction r generalizing fuel with
  | refl cs pos npkt =>
    unfold decTotal
    rw [if_neg (lt_irrefl _), if_neg (lt_irrefl _)]
  | step e r ih =>
    have moved := progress e
    have := r.le progress
    obtain ⟨fuel, rfl⟩ := Nat.exists_eq_succ_of_ne_zero (show fuel ≠ 0 by omega)
    rw [decTotal, if_pos (by omega), e]
    exact ih (by omega) (by omega)

/-- As many children as the count are what the mode-1 loop reads (R125). -/
theorem decCount_of_reads {child : Nat → Nat → Parse Packet} {cs cs' : Packets} {pos npkt pos' npkt' : Nat}
    (r : Reads child cs pos npkt cs' pos' npkt') {n : Nat} (hn : Packets.length cs + n = Packets.length cs') :
    decCount child n cs pos npkt = .done cs' pos' npkt' := by
  induction r generalizing n with
  | refl cs pos npkt => rw [show n = 0 by omega]; rfl
  | step e r ih =>
    have more := r.length_le
    rw [length_snoc] at more
    obtain ⟨n, rfl⟩ := Nat.exists_eq_succ_of_ne_zero (show n ≠ 0 by omega)
    rw [decCount, e]
    exact ih (by rw [length_snoc]; omega)

end Sys2Proof.Machine
end

section
/-! PROOF. The round trip of R168 (a), (b), continued: packets, then the command. -/

namespace Sys2Proof.Machine

/-! ### Headers at a position -/

/-- A header's version and type are read, and the type decides what follows (R71, R122). -/
theorem dec_of_header {cfg : Config} {buf rest : Bits} {v : Version} {t : PacketType} {d pos npkt n : Nat}
    (h : buf.drop pos = headerBits v t ++ rest) (entered : entry cfg d npkt = .ok n) (fuel : Nat) :
    buf.drop (pos + 6) = rest ∧ dec cfg buf (fuel + 1) d pos npkt =
      if t = .literal then decGroups cfg buf v (buf.length - pos) 0 (pos + 6) n
      else decOperator buf (dec cfg buf fuel (d + 1)) fuel v t (pos + 6) n := by
  rw [headerBits, List.append_assoc] at h
  obtain ⟨version, h₁⟩ := popAt_of_drop (n := 3) h (by simp)
  obtain ⟨type, h₂⟩ := popAt_of_drop (n := 3) h₁ (by simp)
  rw [val_bitsOf v.isLt] at version
  rw [val_bitsOf (code_lt t)] at type
  refine ⟨h₂, ?_⟩
  rw [dec, entered]; dsimp only
  rw [version]; dsimp only
  rw [type]; dsimp only
  rw [ofCode_code, BitVec.ofNat_toNat, BitVec.setWidth_eq]

/-- A mode-0 operator's framing is read (R73, R125). -/
theorem decOperator_of_total {buf rest : Bits} {child : Nat → Nat → Parse Packet} {v : Version} {t : PacketType}
    {fuel total pos npkt : Nat} (ht : total < 2 ^ 15)
    (h : buf.drop pos = LengthMode.totalBits.bit :: bitsOf total 15 ++ rest) :
    buf.drop (pos + 16) = rest ∧ decOperator buf child fuel v t pos npkt =
      decClose v t .totalBits (decTotal child total (pos + 16) fuel .nil (pos + 16) npkt) := by
  obtain ⟨mode, h₁⟩ := popAt_of_drop (x := [false]) (n := 1) h rfl
  obtain ⟨length, h₂⟩ := popAt_of_drop (x := bitsOf total 15) (n := 15) h₁ (by simp)
  rw [val_bitsOf ht] at length
  refine ⟨h₂, ?_⟩
  rw [decOperator, mode]; dsimp only
  rw [if_pos (by decide), length]

/-- A mode-1 operator's framing is read (R74, R125). -/
theorem decOperator_of_count {buf rest : Bits} {child : Nat → Nat → Parse Packet} {v : Version} {t : PacketType}
    {fuel count pos npkt : Nat} (hc : count < 2 ^ 11)
    (h : buf.drop pos = LengthMode.immediateCount.bit :: bitsOf count 11 ++ rest) :
    buf.drop (pos + 12) = rest ∧ decOperator buf child fuel v t pos npkt =
      decClose v t .immediateCount (decCount child count .nil (pos + 12) npkt) := by
  obtain ⟨mode, h₁⟩ := popAt_of_drop (x := [true]) (n := 1) h rfl
  obtain ⟨length, h₂⟩ := popAt_of_drop (x := bitsOf count 11) (n := 11) h₁ (by simp)
  rw [val_bitsOf hc] at length
  refine ⟨h₂, ?_⟩
  rw [decOperator, mode]; dsimp only
  rw [if_neg (by decide), length]

theorem decClose_of_arityOk {v : Version} {t : PacketType} {m : LengthMode} {cs : Packets} {pos npkt : Nat}
    (ok : arityOk t (Packets.length cs) = true) :
    decClose v t m (.done cs pos npkt) = .done (.op v t m cs) pos npkt := by
  simp [decClose, ok]

/-- Everything `encOperator` can write: the header of its mode, whose length field holds its number, and the body
(R164, R165). -/
theorem encOperator_eq_ok {v : Version} {t : PacketType} {m : LengthMode} {count : Nat} {body b : Bits}
    (h : encOperator v t m count body = .ok b) :
    (m = .totalBits ∧ body.length < 2 ^ 15 ∧ b = totalHeader v t body.length ++ body) ∨
      (m = .immediateCount ∧ count < 2 ^ 11 ∧ b = countHeader v t count ++ body) := by
  unfold encOperator at h
  split at h <;> split at h <;> cases h
  · exact .inl ⟨rfl, by omega, rfl⟩
  · exact .inr ⟨rfl, by omega, rfl⟩

/-- No packet's encoding is empty. -/
theorem enc_length_pos {policy : EncPolicy} {p : Packet} {b : Bits} (e : enc policy p = .ok b) : 0 < b.length := by
  cases p with
  | lit v value => cases e; simp [headerBits]
  | op v t m cs =>
    unfold enc at e
    split at e
    · cases e
    · rcases encOperator_eq_ok e with ⟨-, -, rfl⟩ | ⟨-, -, rfl⟩
      · simp [totalHeader]
      · simp [countHeader]

/-- An encoded operator is read back, where its children's encoding is read back as those children. -/
theorem dec_of_encOperator {cfg : Config} {buf b body rest : Bits} {v : Version} {t : PacketType} {m : LengthMode}
    {cs : Packets} {fuel d pos npkt n : Nat} (type : t ≠ .literal) (arity : arityOk t (Packets.length cs) = true)
    (entered : entry cfg d npkt = .ok (npkt + 1)) (e : encOperator v t m (Packets.length cs) body = .ok b)
    (h : buf.drop pos = b ++ rest) (fuelled : b.length ≤ fuel + 1)
    (children : ∀ {start}, buf.drop start = body ++ rest → body.length ≤ fuel →
      Reads (dec cfg buf fuel (d + 1)) .nil start (npkt + 1) cs (start + body.length) n) :
    dec cfg buf (fuel + 1) d pos npkt = .done (.op v t m cs) (pos + b.length) n := by
  rcases encOperator_eq_ok e with ⟨rfl, field, rfl⟩ | ⟨rfl, field, rfl⟩
  · have header : (totalHeader v t body.length).length = 22 := by simp [totalHeader, headerBits]
    rw [List.length_append, header] at fuelled ⊢
    rw [totalHeader, List.append_assoc, List.append_assoc] at h
    obtain ⟨h₁, decoded⟩ := dec_of_header h entered fuel
    obtain ⟨h₂, operator⟩ := decOperator_of_total field h₁
    have reads := children h₂ (by omega)
    have loop := decTotal_of_reads (dec_progress ..) reads le_rfl (fuel := fuel) (by omega)
    rw [Nat.add_sub_cancel_left] at loop
    rw [decoded, if_neg type, operator, loop, decClose_of_arityOk arity]
    congr 1; omega
  · have header : (countHeader v t (Packets.length cs)).length = 18 := by simp [countHeader, headerBits]
    rw [List.length_append, header] at fuelled ⊢
    rw [countHeader, List.append_assoc, List.append_assoc] at h
    obtain ⟨h₁, decoded⟩ := dec_of_header h entered fuel
    obtain ⟨h₂, operator⟩ := decOperator_of_count field h₁
    have loop := decCount_of_reads (children h₂ (by omega)) (n := Packets.length cs) (by simp [Packets.length])
    rw [decoded, if_neg type, operator, loop, decClose_of_arityOk arity]
    congr 1; omega

/-- An encoded Literal is read back (R163). -/
theorem dec_of_encoded_lit {cfg : Config} {buf rest : Bits} {v : Version} {value fuel d pos npkt n : Nat}
    (fits : Fits cfg d npkt (.lit v value) n)
    (h : buf.drop pos = headerBits v .literal ++ groups (digits value) ++ rest) :
    dec cfg buf (fuel + 1) d pos npkt =
      .done (.lit v value) (pos + (headerBits v .literal ++ groups (digits value)).length) n := by
  obtain ⟨entered, narrow⟩ := fits_lit.mp fits
  rw [List.append_assoc] at h
  obtain ⟨h₁, decoded⟩ := dec_of_header h entered fuel
  have left := congrArg List.length h
  simp only [List.length_drop, List.length_append, length_groups] at left
  have loop := decGroups_of_groups (cfg := cfg) (v := v) (npkt := n) (start := 0) (digits_ne_nil value)
    (digits_lt value) h₁ (fuel := buf.length - pos) (by omega) (by rwa [valueOf_digits])
  rw [decoded, if_pos rfl, loop, valueOf_digits]
  congr 1
  simp [headerBits, length_groups]; omega

mutual

/-- What `enc` writes of a packet that fits, `dec` reads back, with as much fuel as there are bits (R168). -/
theorem dec_of_enc {cfg : Config} {policy : EncPolicy} {buf : Bits} : ∀ {p : Packet} {b rest : Bits}
    {fuel d pos npkt n : Nat}, Fits cfg d npkt p n → enc policy p = .ok b → buf.drop pos = b ++ rest →
    b.length ≤ fuel + 1 → dec cfg buf (fuel + 1) d pos npkt = .done (withModes policy p) (pos + b.length) n
  | .lit _ _, _, _, _, _, _, _, _, fits, e, h, _ => by
    cases e; exact dec_of_encoded_lit fits h
  | .op v t m cs, b, rest, fuel, d, pos, npkt, n, fits, e, h, fuelled => by
    obtain ⟨type, arity, children⟩ := fits_op.mp fits
    unfold enc at e
    split at e
    · cases e
    · rename_i body eAll
      rw [← length_withModesAll policy] at arity e
      exact dec_of_encOperator type arity children.entry e h fuelled fun hs hf =>
        reads_of_encAll (acc := .nil) children eAll hs hf

/-- What `encAll` writes of children that fit is read back child by child, after those already read. -/
theorem reads_of_encAll {cfg : Config} {policy : EncPolicy} {buf : Bits} : ∀ {cs acc : Packets} {b rest : Bits}
    {fuel d pos npkt n : Nat}, FitsAll cfg d npkt cs n → encAll policy cs = .ok b → buf.drop pos = b ++ rest →
    b.length ≤ fuel →
    Reads (dec cfg buf fuel d) acc pos npkt (appendAll acc (withModesAll policy cs)) (pos + b.length) n
  | .nil, acc, _, _, _, _, _, _, _, fits, e, _, _ => by
    obtain ⟨-, -, rfl⟩ := fitsAll_nil.mp fits
    cases e
    rw [withModesAll, appendAll_nil]
    exact .refl ..
  | .cons c cs, acc, b, rest, fuel, d, pos, npkt, n, fits, e, h, fuelled => by
    obtain ⟨k, one, others⟩ := fitsAll_cons.mp fits
    unfold encAll at e
    split at e
    · cases e
    · rename_i b₁ e₁
      split at e
      · cases e
      · rename_i b₂ e₂
        cases e
        rw [List.length_append] at fuelled ⊢
        rw [List.append_assoc] at h
        have h₂ : buf.drop (pos + b₁.length) = b₂ ++ rest := by simp [← List.drop_drop, h]
        have nonempty : 0 < b₁.length := enc_length_pos e₁
        obtain ⟨fuel, rfl⟩ := Nat.exists_eq_succ_of_ne_zero (show fuel ≠ 0 by omega)
        rw [withModesAll, ← appendAll_snoc, ← Nat.add_assoc]
        exact .step (dec_of_enc one e₁ h (by omega)) (reads_of_encAll others e₂ h₂ (by omega))

end

/-! ### Hexadecimal text -/

theorem hexval_hexDigit {v : Nat} (h : v < 16) : hexval (hexDigit v) = some v := by
  have : ∀ v : Fin 16, hexval (hexDigit v) = some v.val := by decide
  exact this ⟨v, h⟩

/-- Text that `toHex` wrote loads as the bits it was written from (R11, R100). -/
theorem scanHex_toHex {maxBits : Nat} : ∀ {b : Bits} {i : Nat}, b.length % 4 = 0 → 4 * i + b.length ≤ maxBits →
    scanHex maxBits i (toHex b) = .ok b
  | [], _, _, _ => rfl
  | w :: x :: y :: z :: rest, i, whole, room => by
    simp only [List.length_cons] at whole room
    have next := scanHex_toHex (maxBits := maxBits) (b := rest) (i := i + 1) (by omega) (by omega)
    have digit : bitsOf (val [w, x, y, z]) 4 = [w, x, y, z] := bitsOf_val [w, x, y, z]
    rw [toHex, scanHex, if_neg (by omega), hexval_hexDigit (val_lt [w, x, y, z])]
    simp [next, digit]
  | [_], _, whole, _ | [_, _], _, whole, _ | [_, _, _], _, whole, _ => by simp at whole

/-! ### The command -/

/-- An ENCODE that ends with OK has put the padded encoding of a validated packet in OUT (R160). -/
theorem encodeCommand_ok {s : State} {p : Packet} {b : Bits} (ok : (encodeCommand p s).err = .ok)
    (e : enc s.cfg.encPolicy p = .ok b) :
    (∃ n, Fits s.cfg 1 0 p n) ∧ (padded b).length ≤ s.cfg.maxBits ∧
      encodeCommand p s = State.succeed { s with out := padded b } := by
  unfold encodeCommand at ok ⊢
  rcases encoded_cases s.cfg p with ⟨r, legal, raised⟩ | ⟨n, c, valid, e', room, eq⟩
  · rw [raised] at ok; exact absurd ok legal.1
  · rw [e] at e'; cases e'
    rw [eq]
    exact ⟨⟨n, validate_eq_ok.mp valid⟩, room, rfl⟩

/-- DECODEOUTER of a padded encoding that fits the core, as one transition of an idle core: the packet comes back, POS
stands at the padding, and WARN tells whether it is four bits or more (R138, R139, R168). -/
theorem decodeOuter_of_padded {s : State} {p : Packet} {b : Bits} {policy : EncPolicy} {n : Nat}
    (fits : Fits s.cfg 1 0 p n) (e : enc policy p = .ok b) (room : (padded b).length ≤ s.cfg.maxBits) :
    commandAtOnce (.decodeOuter (toHex (padded b))) s =
      some { s with
        buf := padded b, pos := b.length, tree := some (withModes policy p), err := .ok, errSub := .none, errPos := 0,
        warn := decide (4 ≤ padLength b.length), npkt := 0, frames := [], acc := 0, running := .idle } := by
  have load : scanHex s.cfg.maxBits 0 (toHex (padded b)) = .ok (padded b) := by
    have := padded_length_mod b
    exact scanHex_toHex (by omega) (by omega)
  have read : dec s.cfg (padded b) ((padded b).length + 1) 1 0 0 =
      .done (withModes policy p) b.length n := by
    have := dec_of_enc (buf := padded b) (pos := 0) (fuel := (padded b).length) fits e rfl (by simp [padded]; omega)
    rwa [Nat.zero_add] at this
  have warned : (decide (4 ≤ (padded b).length - b.length) || ((padded b).drop b.length).any id) =
      decide (4 ≤ padLength b.length) := by simp [padded]
  simp only [commandAtOnce, command, decodeOuterCommand, loadHex, load, State.succeed_err, if_true,
    State.beginDecode_running, State.decodeAtOnce, State.decOuter, State.decFuel, State.remaining, State.len,
    State.beginDecode_cfg, State.beginDecode_buf, State.beginDecode_pos, State.succeed_cfg, State.succeed_buf,
    State.succeed_pos, Nat.sub_zero, read, finishDecode_eq, decodeSuccess, warned]
  rfl

end Sys2Proof.Machine

open Sys2Proof Sys2Proof.Machine

/-- Settles O43: the packet that comes back is p with the modes its encoding has. -/
theorem encodeThenDecodeOuterRoundTrips : Obligations.EncodeThenDecodeOuterRoundTrips := by
  intro s p b _ ok e
  obtain ⟨⟨n, fits⟩, room, eq⟩ := encodeCommand_ok ok e
  rw [eq]
  refine ⟨_, withModes s.cfg.encPolicy p, decodeOuter_of_padded fits e room, rfl, rfl, rfl, rfl, rfl,
    semEq_withModes _ p, fun policy => ?_, fun policy => ?_⟩
  · rw [policy]; exact withModes_retain p
  · rw [policy]; exact modesAre_forceCount p
end

section
/-! PROOF. What the cursor's commands and the internal `pop` do (R50, R51, R100, R101), and how an idle core serves the
host's next command (R58). -/

namespace Sys2Proof.Machine

/-- An idle core's step is the next command's effect on the state without that move (R58). -/
theorem step_of_issue {s : State} {c : Command} {rest : List HostMove} (idle : s.running = .idle)
    (pending : s.pending = .issue c :: rest) : step s = .next (command c { s with pending := rest }) := by
  simp [step, idle, serve, pending]

/-- The scan of hex text within the capacity gives each digit's four bits, most significant first (R51, R100). -/
theorem scanHex_of_legal {maxBits : Nat} {text : List Char} (legal : ∀ c ∈ text, hexval c ≠ none) {i : Nat}
    (room : 4 * (i + text.length) ≤ maxBits) :
    scanHex maxBits i text = .ok (text.flatMap fun c => bitsOf ((hexval c).getD 0) 4) := by
  induction text generalizing i with
  | nil => rfl
  | cons c cs ih =>
    rw [List.length_cons] at room
    obtain ⟨v, digit⟩ := Option.ne_none_iff_exists'.mp (legal c (by simp))
    have others := ih (fun x hx => legal x (.tail c hx)) (i := i + 1) (by omega)
    simp [scanHex, digit, others, show ¬ maxBits < 4 * (i + 1) by omega]

/-- The bits of a value read at an address are the bits that stand there (R10, R50). -/
theorem bitsOf_memRead {b : Bits} {pos n : Nat} (h : n ≤ b.length - pos) :
    bitsOf (memRead b pos n) n = (b.drop pos).take n := by
  have length : ((b.drop pos).take n).length = n := by simp [h]
  have bits := bitsOf_val ((b.drop pos).take n)
  rwa [length] at bits

end Sys2Proof.Machine

open Sys2Proof Sys2Proof.Machine

/-- Settles O29. -/
theorem idleCoreServesTheNextCommand : Obligations.IdleCoreServesTheNextCommand :=
  fun _ c _ idle pending => ⟨step_of_issue idle pending, (command_frame c _).pending⟩

/-- Settles O30, by the scan of legal text. -/
theorem loadHexFillsTheCursor : Obligations.LoadHexFillsTheCursor := by
  intro s text rest idle pending legal room
  have scanned := scanHex_of_legal (maxBits := s.cfg.maxBits) legal (i := 0) (by omega)
  rw [step_of_issue idle pending, command, loadHex, scanned]
  rfl

/-- Settles O33. -/
theorem poppedValueFitsItsWidth : Obligations.PoppedValueFitsItsWidth := by
  intro n s t v h
  obtain ⟨inside, rfl, rfl⟩ := popBits_eq_some.mp h
  exact ⟨memRead_lt .., bitsOf_memRead inside, rfl⟩
end

section
/-! PROOF. The stepping core against the recursive decoder (R58, R122 to R136): where the machine stands when a call of
`dec` has ended, and that its steps lead there. -/

namespace Sys2Proof.Machine

/-! ### The relation -/

/-- Some number of steps lead from one state to the other. -/
abbrev Reaches : State → State → Prop :=
  Relation.ReflTransGen fun s t => step s = .next t

theorem run_of_step {M : Host.Core} {s t : M.State} (h : M.step s = .next t) (k : Nat) :
    M.run (k + 1) s = M.run k t := by
  rw [Host.Core.run, h]

theorem run_of_reaches {s t : State} (h : Reaches s t) : ∃ k, Host.Core.run Sys2Proof.core k s = .next t := by
  induction h using Relation.ReflTransGen.head_induction_on with
  | refl => exact ⟨0, rfl⟩
  | head e _ ih =>
    obtain ⟨k, rest⟩ := ih
    exact ⟨k + 1, (run_of_step (M := Sys2Proof.core) e k).trans rest⟩

/-- Where the machine stands when a call of the recursive decoder made at s has ended so: the packet is delivered, or
the decode has failed; nowhere if the fuel ran out. -/
def State.after (s : State) : Parse Packet → Option State
  | .done p pos npkt => some (State.deliver p { s with pos := pos, npkt := npkt, acc := 0 })
  | .raised e sub pos => some (decodeFailure e sub pos s)
  | .exhausted => none

/-- The machine at u comes to where it stands when a call made at s has ended with r, and the fuel did not run out. -/
def Leads (u s : State) (r : Parse Packet) : Prop :=
  ∃ t, s.after r = some t ∧ Reaches u t

theorem not_leads_exhausted {u s : State} : ¬ Leads u s .exhausted := by
  rintro ⟨t, h, -⟩; cases h

theorem leads_raised {s : State} (e : Err) (sub : ErrSub) (pos : Nat) :
    Leads (decodeFailure e sub pos s) s (.raised e sub pos) :=
  ⟨_, rfl, .refl⟩

theorem Leads.of_reaches {u u' s : State} {r : Parse Packet} (h : Reaches u u') (l : Leads u' s r) : Leads u s r := by
  obtain ⟨t, e, h'⟩ := l
  exact ⟨t, e, h.trans h'⟩

theorem Leads.of_step {u u' s : State} {r : Parse Packet} (h : step u = .next u') (l : Leads u' s r) : Leads u s r :=
  l.of_reaches (.single h)

/-! ### One step -/

/-- Every step of a decode enters a packet (R121). -/
theorem step_enters {s : State} (running : s.running ≠ .idle) : ∃ body, step s = .next (s.enter body) := by
  rcases step_cases s with ⟨idle, -⟩ | ⟨-, ⟨i, rest, -, e⟩ | ⟨offset, -, e⟩⟩
  · exact absurd idle running
  · cases i <;> exact ⟨_, e⟩
  · exact ⟨_, e⟩

theorem step_of_decode_ok {s : State} {i : Instr} {rest : Bits} (running : s.running ≠ .idle)
    (h : decode s.trailing = .ok (i, rest)) : step s = exec i s := by
  rcases step_cases s with ⟨idle, -⟩ | ⟨-, ⟨j, rest', d, e⟩ | ⟨offset, d, e⟩⟩
  · exact absurd idle running
  · rw [h] at d; cases d; exact e
  · rw [h] at d; cases d

theorem step_of_decode_error {s : State} {offset : Nat} (running : s.running ≠ .idle)
    (h : decode s.trailing = .error (.insufficientBits offset)) : step s = .next (truncated offset s) := by
  rcases step_cases s with ⟨idle, -⟩ | ⟨-, ⟨j, rest', d, e⟩ | ⟨offset, d, e⟩⟩
  · exact absurd idle running
  · rw [h] at d; cases d
  · rw [h] at d; cases d; exact e

theorem enter_of_entry_ok {body : State → State} {s : State} {n : Nat} (h : entry s.cfg s.depth s.npkt = .ok n) :
    s.enter body = body { s with npkt := n } := by
  simp [State.enter, h]

theorem enter_of_entry_error {body : State → State} {s : State} {e : Err} {sub : ErrSub}
    (h : entry s.cfg s.depth s.npkt = .error (e, sub)) : s.enter body = decodeFailure e sub s.pos s := by
  simp [State.enter, h, takeError_decode]

/-- A field of the trailing bits is the field that stands there in the buffer (R76, R101). -/
theorem field_drop (buf : Bits) (pos n : Nat) :
    field n (buf.drop pos) = (popAt buf pos n).map fun v => (v, buf.drop (pos + n)) := by
  unfold field popAt memRead
  rw [List.length_drop, List.drop_drop]
  split <;> rfl

/-- A packet that a ceiling refuses ends the decode, as the recursive call does (R121). -/
theorem leads_of_entry_error {s : State} {e : Err} {sub : ErrSub} (running : s.running ≠ .idle)
    (h : entry s.cfg s.depth s.npkt = .error (e, sub)) : Leads s s (.raised e sub s.pos) := by
  obtain ⟨body, hs⟩ := step_enters running
  rw [enter_of_entry_error h] at hs
  exact .of_step hs (leads_raised ..)

/-- An entered packet that is cut short in its own fields ends the decode at the first missing one (R101, R122). -/
theorem leads_of_decode_error {s : State} {offset n : Nat} (running : s.running ≠ .idle)
    (entered : entry s.cfg s.depth s.npkt = .ok n) (h : decode s.trailing = .error (.insufficientBits offset)) :
    Leads s s (.raised .insufficientBits .none (s.pos + offset)) := by
  have hs := step_of_decode_error running h
  rw [truncated, enter_of_entry_ok entered] at hs
  exact .of_step hs (leads_raised ..)

/-! ### A packet's own fields -/

/-- The internal `pop` is the recursive decoder's, with the cursor moved on (R101). -/
theorem popBits_eq_popAt (n : Nat) (s : State) :
    s.popBits n = (popAt s.buf s.pos n).map fun v => (v, s.advance n) := by
  unfold State.popBits popAt
  rw [State.remaining, State.len]
  split <;> rfl

/-- Under a header of type LITERAL the instruction goes on with the first group (R72, R122). -/
theorem decode_drop_of_literal {buf : Bits} {pos v c : Nat} (version : popAt buf pos 3 = some v)
    (type : popAt buf (pos + 3) 3 = some c) (literal : PacketType.ofCode (Fin.ofNat 8 c) = .literal) :
    decode (buf.drop pos) = decodeFirstGroup (BitVec.ofNat 3 v) (buf.drop (pos + 6)) := by
  simp only [decode, field_drop, version, type, Option.map_some, literal]

/-- Under a header of any other type it goes on with the framing fields, and the instruction opens a frame of that type
and version (R73, R74, R125). -/
theorem decode_drop_of_operator {buf : Bits} {pos v c : Nat} (version : popAt buf pos 3 = some v)
    (type : popAt buf (pos + 3) 3 = some c) (operator : PacketType.ofCode (Fin.ofNat 8 c) ≠ .literal) :
    ∃ total count : Nat → Instr, decode (buf.drop pos) = decodeFraming total count (buf.drop (pos + 6)) ∧
      (∀ n s, exec (total n) s = openTotal (PacketType.ofCode (Fin.ofNat 8 c)) (BitVec.ofNat 3 v) n s) ∧
      ∀ n s, exec (count n) s = openCount (PacketType.ofCode (Fin.ofNat 8 c)) (BitVec.ofNat 3 v) n s := by
  simp only [decode, field_drop, version, type, Option.map_some]
  generalize PacketType.ofCode (Fin.ofNat 8 c) = t at operator
  cases t with
  | literal => exact absurd rfl operator
  | _ => exact ⟨_, _, rfl, fun _ _ => rfl, fun _ _ => rfl⟩

/-! ### A Literal -/

/-- What follows a chunk in the machine is what follows it in the recursive decoder, where the next groups are (R123,
R124). -/
theorem after_of_chunk {s : State} {version : Version} {next : State → State} {groups : Nat → Parse Packet}
    {flag acc pos npkt : Nat} (hf : flag < 2) (chunk : Nat)
    (h : ∀ acc, s.after (groups acc) = some (next { s with pos := pos, npkt := npkt, acc := acc })) :
    s.after
        (if tooWide (acc * 16 + chunk) s.cfg.valueBits then .raised .limitExceeded .value pos
          else if flag = 0 then .done (.lit version (acc * 16 + chunk)) pos npkt
          else groups (acc * 16 + chunk)) =
      some (afterChunk version next (flag == 1) chunk { s with pos := pos, npkt := npkt, acc := acc }) := by
  cases wide : tooWide (acc * 16 + chunk) s.cfg.valueBits with
  | true => rw [afterChunk_of_tooWide (s := { s with pos := pos, npkt := npkt, acc := acc }) wide]; rfl
  | false =>
    rw [afterChunk_of_fits (s := { s with pos := pos, npkt := npkt, acc := acc }) wide]
    obtain rfl | rfl : flag = 0 ∨ flag = 1 := by omega
    · rfl
    · exact h _

theorem flag_lt {buf : Bits} {pos flag : Nat} (h : popAt buf pos 1 = some flag) : flag < 2 := by
  obtain ⟨-, rfl⟩ := popAt_eq_some.mp h
  exact memRead_lt buf pos 1

/-- The two ways of reading groups, each with fuel enough, come to the same (R123). -/
theorem after_decGroups {s : State} (version : Version) {fuel fuel' acc pos npkt : Nat} (fuelled : s.len - pos < fuel)
    (fuelled' : s.len - pos ≤ fuel') :
    s.after (decGroups s.cfg s.buf version fuel acc pos npkt) =
      some (literalGroups version fuel' { s with pos := pos, npkt := npkt, acc := acc }) := by
  induction fuel generalizing fuel' acc pos with
  | zero => exact absurd fuelled (Nat.not_lt_zero _)
  | succ fuel ih =>
    unfold decGroups
    cases flag : popAt s.buf pos 1 with
    | none =>
      cases fuel' with
      | zero => rfl
      | succ fuel' => simp only [literalGroups, popBits_eq_popAt, flag, Option.map_none]; rfl
    | some f =>
      obtain ⟨inside, -⟩ := popAt_eq_some.mp flag
      simp only [State.len] at fuelled fuelled' ih
      obtain ⟨fuel', rfl⟩ := Nat.exists_eq_succ_of_ne_zero (show fuel' ≠ 0 by omega)
      simp only [literalGroups, popBits_eq_popAt, flag, State.advance_buf, State.advance_pos, Option.map_some]
      cases chunk : popAt s.buf (pos + 1) 4 with
      | none => rfl
      | some c =>
        have further (acc : Nat) := ih (acc := acc) (pos := pos + 5) (fuel' := fuel') (by omega) (by omega)
        exact after_of_chunk (flag_lt flag) c further

/-- A Literal's step leads where the recursive call does (R122, R123): its first group is part of the instruction. -/
theorem leads_of_literal {s : State} {version : Version} {n : Nat} (running : s.running ≠ .idle)
    (entered : entry s.cfg s.depth s.npkt = .ok n) (header : s.pos + 6 ≤ s.len)
    (h : decode s.trailing = decodeFirstGroup version (s.buf.drop (s.pos + 6))) :
    Leads s s (decGroups s.cfg s.buf version (s.buf.length - s.pos) 0 (s.pos + 6) n) := by
  rw [decodeFirstGroup, field_drop] at h
  simp only [State.len] at header
  obtain ⟨fuel, hfuel⟩ := Nat.exists_eq_succ_of_ne_zero (show s.buf.length - s.pos ≠ 0 by omega)
  rw [hfuel, decGroups]
  cases flag : popAt s.buf (s.pos + 6) 1 with
  | none =>
    rw [flag] at h
    exact leads_of_decode_error running entered h
  | some f =>
    simp only [flag, Option.map_some, field_drop] at h
    dsimp only
    cases chunk : popAt s.buf (s.pos + 6 + 1) 4 with
    | none =>
      rw [chunk] at h
      exact leads_of_decode_error running entered h
    | some c =>
      rw [chunk] at h
      have hs := step_of_decode_ok running h
      rw [exec, execLiteral, enter_of_entry_ok entered] at hs
      have further (acc : Nat) : s.after (decGroups s.cfg s.buf version fuel acc (s.pos + 11) n) =
          some (literalGroups version s.remaining { s with pos := s.pos + 11, npkt := n, acc := acc }) :=
        after_decGroups version (by simp only [State.len]; omega) (by simp only [State.remaining]; omega)
      exact ⟨_, after_of_chunk (flag_lt flag) c further, .single hs⟩

/-! ### The loops of R125 -/

/-- With that much fuel, the machine goes from where a packet is about to be read to where the recursive call ends. -/
def Simulates (fuel : Nat) : Prop :=
  ∀ ⦃s : State⦄, s.running ≠ .idle → s.acc = 0 → s.remaining < fuel →
    Leads s s (dec s.cfg s.buf fuel s.depth s.pos s.npkt)

/-- A complete frame is closed as the recursive decoder closes its operator (R125, R134, R135). -/
theorem leads_of_full {s : State} {f : Frame} (acc : s.acc = 0) (full : f.status s.pos = .full) :
    Leads (resume s f s.frames) s (decClose f.version f.type f.framing.mode (.done f.children s.pos s.npkt)) := by
  cases ok : arityOk f.type (Packets.length f.children) with
  | true =>
    rw [resume_of_full full ok, decClose_of_arityOk ok]
    refine ⟨_, rfl, ?_⟩
    rw [← acc]
    exact .refl
  | false =>
    rw [resume_of_bad_arity full ok]
    simp only [decClose, ok]
    exact leads_raised ..

/-- A frame that wants a child leads where the call for that child says: the decode fails as the call did, or the
child joins the frame further on and the loop test is made again (R125). -/
theorem leads_of_child {fuel : Nat} (sim : Simulates fuel) {s : State} {f : Frame} (running : s.running ≠ .idle)
    (acc : s.acc = 0) (wants : f.status s.pos = .wantsChild) (fuelled : s.remaining < fuel) :
    (∃ p pos npkt, dec s.cfg s.buf fuel (s.depth + 1) s.pos s.npkt = .done p pos npkt ∧
      State.remaining { s with pos := pos } < s.remaining ∧
      Reaches (resume s f s.frames) (resume { s with pos := pos, npkt := npkt } (f.addChild p) s.frames)) ∨
    ∃ e sub pos, dec s.cfg s.buf fuel (s.depth + 1) s.pos s.npkt = .raised e sub pos ∧
      Leads (resume s f s.frames) s (.raised e sub pos) := by
  have child : Leads { s with frames := f :: s.frames } { s with frames := f :: s.frames }
      (dec s.cfg s.buf fuel (s.depth + 1) s.pos s.npkt) := sim running acc fuelled
  rw [resume_of_wantsChild wants]
  cases call : dec s.cfg s.buf fuel (s.depth + 1) s.pos s.npkt with
  | done p pos npkt =>
    rw [call] at child
    obtain ⟨t, delivered, h⟩ := child
    have joins : State.deliver p { s with frames := f :: s.frames, pos := pos, npkt := npkt, acc := 0 } =
        resume { s with pos := pos, npkt := npkt } (f.addChild p) s.frames := by
      rw [← acc]
      exact resume_frames { s with pos := pos, npkt := npkt } (f :: s.frames) _ _
    cases delivered
    obtain ⟨consumes, inside, -⟩ := dec_bounded call
    refine .inl ⟨p, pos, npkt, rfl, ?_, joins ▸ h⟩
    simp only [State.remaining, State.len]
    omega
  | raised e sub pos =>
    rw [call] at child
    exact .inr ⟨e, sub, pos, rfl, child⟩
  | exhausted =>
    rw [call] at child
    exact absurd child not_leads_exhausted

/-- The mode-0 loop (R125, R126). -/
theorem leads_of_decTotal {fuel : Nat} (sim : Simulates fuel) {s : State} (running : s.running ≠ .idle)
    (acc : s.acc = 0) (version : Version) (type : PacketType) (total start : Nat) {k : Nat} (cs : Packets)
    (fuelled : s.remaining < fuel) (enough : s.remaining < k) :
    Leads (resume s ⟨version, type, .total total start, cs⟩ s.frames) s
      (decClose version type .totalBits
        (decTotal (dec s.cfg s.buf fuel (s.depth + 1)) total start k cs s.pos s.npkt)) := by
  induction k generalizing s cs with
  | zero => exact absurd enough (Nat.not_lt_zero _)
  | succ k ih =>
    unfold decTotal
    by_cases lacks : s.pos - start < total
    · have wants : Frame.status s.pos ⟨version, type, .total total start, cs⟩ = .wantsChild := if_pos lacks
      rw [if_pos lacks]
      rcases leads_of_child sim running acc wants fuelled with ⟨p, pos, npkt, call, less, joins⟩ |
        ⟨e, sub, pos, call, fails⟩
      · rw [call]
        exact .of_reaches joins (ih (s := { s with pos := pos, npkt := npkt }) running acc (Packets.snoc cs p)
          (less.trans fuelled) (Nat.lt_of_lt_of_le less (Nat.le_of_lt_succ enough)))
      · rw [call]
        exact fails
    · rw [if_neg lacks]
      by_cases more : total < s.pos - start
      · have overshot : Frame.status s.pos ⟨version, type, .total total start, cs⟩ = .overshot :=
          (if_neg lacks).trans (if_pos more)
        rw [if_pos more, resume_of_overshot overshot]
        exact leads_raised ..
      · have full : Frame.status s.pos ⟨version, type, .total total start, cs⟩ = .full :=
          (if_neg lacks).trans (if_neg more)
        rw [if_neg more]
        exact leads_of_full acc full

/-- The mode-1 loop (R125). -/
theorem leads_of_decCount {fuel : Nat} (sim : Simulates fuel) {s : State} (running : s.running ≠ .idle)
    (acc : s.acc = 0) (version : Version) (type : PacketType) (count : Nat) {k : Nat} (cs : Packets)
    (left : Packets.length cs + k = count) (fuelled : s.remaining < fuel) :
    Leads (resume s ⟨version, type, .count count, cs⟩ s.frames) s
      (decClose version type .immediateCount
        (decCount (dec s.cfg s.buf fuel (s.depth + 1)) k cs s.pos s.npkt)) := by
  induction k generalizing s cs with
  | zero =>
    have full : Frame.status s.pos ⟨version, type, .count count, cs⟩ = .full :=
      if_neg (by dsimp only; omega)
    exact leads_of_full acc full
  | succ k ih =>
    have wants : Frame.status s.pos ⟨version, type, .count count, cs⟩ = .wantsChild :=
      if_pos (by dsimp only; omega)
    unfold decCount
    rcases leads_of_child sim running acc wants fuelled with ⟨p, pos, npkt, call, less, joins⟩ |
      ⟨e, sub, pos, call, fails⟩
    · rw [call]
      exact .of_reaches joins (ih (s := { s with pos := pos, npkt := npkt }) running acc (Packets.snoc cs p)
        (by rw [length_snoc]; omega) (less.trans fuelled))
    · rw [call]
      exact fails

/-! ### An operator, and every packet -/

/-- An operator's step, and the steps for its children, lead where the recursive call does (R125). -/
theorem leads_of_operator {fuel : Nat} (sim : Simulates fuel) {s : State} (running : s.running ≠ .idle)
    (acc : s.acc = 0) {version : Version} {type : PacketType} {n : Nat} (fuelled : s.remaining < fuel + 1)
    (entered : entry s.cfg s.depth s.npkt = .ok n) {total count : Nat → Instr}
    (h : decode s.trailing = decodeFraming total count (s.buf.drop (s.pos + 6)))
    (opensTotal : ∀ k s, exec (total k) s = openTotal type version k s)
    (opensCount : ∀ k s, exec (count k) s = openCount type version k s) :
    Leads s s (decOperator s.buf (dec s.cfg s.buf fuel (s.depth + 1)) fuel version type (s.pos + 6) n) := by
  simp only [State.remaining, State.len] at fuelled
  unfold decOperator
  rw [decodeFraming, field_drop] at h
  cases mode : popAt s.buf (s.pos + 6) 1 with
  | none =>
    rw [mode] at h
    exact leads_of_decode_error running entered h
  | some m =>
    simp only [mode, Option.map_some, field_drop] at h
    dsimp only
    by_cases zero : m = 0
    · rw [if_pos zero] at h ⊢
      cases length : popAt s.buf (s.pos + 6 + 1) 15 with
      | none =>
        rw [length] at h
        exact leads_of_decode_error running entered h
      | some k =>
        obtain ⟨inside, -⟩ := popAt_eq_some.mp length
        rw [length] at h
        have hs := step_of_decode_ok running h
        rw [opensTotal, openTotal, enter_of_entry_ok entered] at hs
        have left : State.remaining { s with pos := s.pos + 22 } < fuel := by
          simp only [State.remaining, State.len]; omega
        exact .of_step hs (leads_of_decTotal sim (s := { s with pos := s.pos + 22, npkt := n }) running acc version type
          k (s.pos + 22) .nil left left)
    · rw [if_neg zero] at h ⊢
      cases length : popAt s.buf (s.pos + 6 + 1) 11 with
      | none =>
        rw [length] at h
        exact leads_of_decode_error running entered h
      | some k =>
        obtain ⟨inside, -⟩ := popAt_eq_some.mp length
        rw [length] at h
        have hs := step_of_decode_ok running h
        rw [opensCount, openCount, enter_of_entry_ok entered] at hs
        have left : State.remaining { s with pos := s.pos + 18 } < fuel := by
          simp only [State.remaining, State.len]; omega
        exact .of_step hs (leads_of_decCount sim (s := { s with pos := s.pos + 18, npkt := n }) running acc version type
          k .nil (Nat.zero_add k) left)

/-- The machine simulates the recursive decoder, by induction on the fuel (R122, R137). -/
theorem dec_simulates (fuel : Nat) : Simulates fuel := by
  induction fuel with
  | zero => exact fun s _ _ fuelled => absurd fuelled (Nat.not_lt_zero _)
  | succ fuel sim =>
    intro s running acc fuelled
    unfold dec
    cases entered : entry s.cfg s.depth s.npkt with
    | error r => exact leads_of_entry_error running entered
    | ok n =>
      dsimp only
      cases version : popAt s.buf s.pos 3 with
      | none =>
        exact leads_of_decode_error (offset := 0) running entered
          (by simp [decode, State.trailing, field_drop, version])
      | some v =>
        dsimp only
        cases type : popAt s.buf (s.pos + 3) 3 with
        | none =>
          exact leads_of_decode_error running entered (by simp [decode, State.trailing, field_drop, version, type])
        | some t =>
          dsimp only
          by_cases literal : PacketType.ofCode (Fin.ofNat 8 t) = .literal
          · obtain ⟨inside, -⟩ := popAt_eq_some.mp type
            rw [if_pos literal]
            exact leads_of_literal running entered (by unfold State.len; omega)
              (decode_drop_of_literal version type literal)
          · obtain ⟨total, count, h, opensTotal, opensCount⟩ := decode_drop_of_operator version type literal
            rw [if_neg literal]
            exact leads_of_operator sim running acc fuelled entered h opensTotal opensCount

/-! ### Whole commands -/

/-- With no frame open, the outer call's end is the command's end (R120, R138). -/
theorem after_decOuter {s : State} (frames : s.frames = []) : s.after s.decOuter = s.decodeAtOnce := by
  unfold State.decodeAtOnce
  cases s.decOuter with
  | done p pos npkt => simp only [State.after, State.deliver, frames]; rfl
  | raised e sub pos => rfl
  | exhausted => rfl

theorem decodeAtOnce_idle {s t : State} (h : s.decodeAtOnce = some t) : t.running = .idle := by
  unfold State.decodeAtOnce at h
  split at h <;> cases h <;> rfl

/-- A decode, just begun, runs to the end that the recursive decoder gives it (R120, R137). -/
theorem reaches_decodeAtOnce {r : Running} (s : State) (running : r ≠ .idle) :
    ∃ t, (s.beginDecode r).decodeAtOnce = some t ∧ Reaches (s.beginDecode r) t := by
  rw [← after_decOuter rfl]
  exact dec_simulates _ running rfl (Nat.lt_succ_self _)

/-- LOADHEX leaves the command in progress as it is (R37). -/
theorem loadHex_running (text : List Char) (s : State) : (loadHex text s).running = s.running := by
  unfold loadHex
  split <;> rfl

/-- A command on an idle core is done at once, or begins a decode with nothing transient (R37, R89). -/
theorem command_idle_or_begins (c : Command) {s : State} (idle : s.running = .idle) :
    (command c s).running = .idle ∨ ∃ r u, r ≠ .idle ∧ command c s = State.beginDecode r u := by
  cases c with
  | loadHex text => exact .inl ((loadHex_running text s).trans idle)
  | pop n =>
    left
    simp only [command, popCommand, popBits_eq_popAt]
    split
    · exact idle
    · cases popAt s.buf s.pos n <;> exact idle
  | remaining => exact .inl idle
  | decode => exact .inr ⟨.decode, s, by decide, rfl⟩
  | decodeOuter text =>
    simp only [command, decodeOuterCommand]
    split
    · exact .inr ⟨.decodeOuter, _, by decide, rfl⟩
    · exact .inl ((loadHex_running text s).trans idle)
  | encode p =>
    left
    simp only [command, encodeCommand]
    split <;> exact idle

theorem commandAtOnce_of_idle {c : Command} {s : State} (h : (command c s).running = .idle) :
    commandAtOnce c s = some (command c s) := by
  simp [commandAtOnce, h]

theorem commandAtOnce_of_begins {c : Command} {s u : State} {r : Running} (running : r ≠ .idle)
    (h : command c s = u.beginDecode r) : commandAtOnce c s = (u.beginDecode r).decodeAtOnce := by
  rw [commandAtOnce, h]
  cases r with
  | idle => exact absurd rfl running
  | decode => rfl
  | decodeOuter => rfl

/-- Every command runs, from where an idle core takes it, to the idle state that its rule gives (R58). -/
theorem command_reaches (c : Command) {s : State} (idle : s.running = .idle) :
    ∃ t, commandAtOnce c s = some t ∧ t.running = .idle ∧ Reaches (command c s) t := by
  rcases command_idle_or_begins c idle with done | ⟨r, u, running, begins⟩
  · exact ⟨_, commandAtOnce_of_idle done, done, .refl⟩
  · obtain ⟨t, ends, h⟩ := reaches_decodeAtOnce u running
    rw [commandAtOnce_of_begins running begins, begins]
    exact ⟨t, ends, decodeAtOnce_idle ends, h⟩

end Sys2Proof.Machine

open Sys2Proof Sys2Proof.Machine

/-- Settles O19: the command is served in one step, and a decode it begins simulates the recursive decoder. -/
theorem everyCommandRunsToItsAtomicEffect : Obligations.EveryCommandRunsToItsAtomicEffect := by
  intro c s idle
  obtain ⟨t, atOnce, ends, h⟩ := command_reaches c idle
  have served : Reaches { s with pending := .issue c :: s.pending } (command c s) := .single (step_of_issue idle rfl)
  obtain ⟨k, run⟩ := run_of_reaches (served.trans h)
  exact ⟨k, t, atOnce, ends, run⟩
end

section
/-! PROOF. Instructions by their fields, and the decoder of one instruction against its encoder (R71 to R76, R80 to
R82). -/

namespace Sys2Proof

/-- The instruction of type t whose bit after the header is `flag` (a Literal's continue flag, an operator's lengthMode)
and whose last field holds n: the packet map of R81, read by fields. -/
def Instr.ofFields (v : Version) (t : PacketType) (flag : Bool) (n : Nat) : Instr :=
  match t, flag with
  | .literal, more => .literal v more n
  | .sum, false => .sumT v n
  | .sum, true => .sumC v n
  | .product, false => .productT v n
  | .product, true => .productC v n
  | .minimum, false => .minimumT v n
  | .minimum, true => .minimumC v n
  | .maximum, false => .maximumT v n
  | .maximum, true => .maximumC v n
  | .greaterThan, false => .greaterThanT v n
  | .greaterThan, true => .greaterThanC v n
  | .lessThan, false => .lessThanT v n
  | .lessThan, true => .lessThanC v n
  | .equalTo, false => .equalToT v n
  | .equalTo, true => .equalToC v n

/-- The width of that last field: a chunk, a childCount or a totalChildBits (R5). -/
def lastWidth (t : PacketType) (flag : Bool) : Nat :=
  if t = .literal then 4 else if flag then 11 else 15

theorem Instr.exists_ofFields (i : Instr) : ∃ v t flag n, i = .ofFields v t flag n := by
  cases i with
  | literal v more chunk => exact ⟨v, .literal, more, chunk, rfl⟩
  | sumT v n => exact ⟨v, .sum, false, n, rfl⟩
  | sumC v n => exact ⟨v, .sum, true, n, rfl⟩
  | productT v n => exact ⟨v, .product, false, n, rfl⟩
  | productC v n => exact ⟨v, .product, true, n, rfl⟩
  | minimumT v n => exact ⟨v, .minimum, false, n, rfl⟩
  | minimumC v n => exact ⟨v, .minimum, true, n, rfl⟩
  | maximumT v n => exact ⟨v, .maximum, false, n, rfl⟩
  | maximumC v n => exact ⟨v, .maximum, true, n, rfl⟩
  | greaterThanT v n => exact ⟨v, .greaterThan, false, n, rfl⟩
  | greaterThanC v n => exact ⟨v, .greaterThan, true, n, rfl⟩
  | lessThanT v n => exact ⟨v, .lessThan, false, n, rfl⟩
  | lessThanC v n => exact ⟨v, .lessThan, true, n, rfl⟩
  | equalToT v n => exact ⟨v, .equalTo, false, n, rfl⟩
  | equalToC v n => exact ⟨v, .equalTo, true, n, rfl⟩

section
variable (v : Version) (t : PacketType) (flag : Bool) (n : Nat)

theorem encode_ofFields :
    encode (.ofFields v t flag n) = headerBits v t ++ flag :: bitsOf n (lastWidth t flag) := by
  cases t <;> cases flag <;> rfl

theorem wellFormed_ofFields : (Instr.ofFields v t flag n).wellFormed = true ↔ n < 2 ^ lastWidth t flag := by
  cases t <;> cases flag <;> exact decide_eq_true_iff

theorem prefixBits_ofFields : (Instr.ofFields v t flag n).prefixBits = 7 + lastWidth t flag := by
  cases t <;> cases flag <;> rfl

@[simp] theorem length_headerBits : (headerBits v t).length = 6 := by
  simp [headerBits]

theorem length_encode_ofFields : (encode (.ofFields v t flag n)).length = 7 + lastWidth t flag := by
  rw [encode_ofFields]; simp; omega

end

/-- Six bits are a header: every version and every type has its bits (R71, R82). -/
theorem exists_header {b : Bits} (h : 6 ≤ b.length) : ∃ v t, b = headerBits v t ++ b.drop 6 := by
  have field (b : Bits) (h : 3 ≤ b.length) : val (b.take 3) < 8 ∧ b = bitsOf (val (b.take 3)) 3 ++ b.drop 3 :=
    field_eq_some.mp (if_neg (by omega))
  obtain ⟨hv, version⟩ := field b (by omega)
  obtain ⟨ht, type⟩ := field (b.drop 3) (by simp; omega)
  refine ⟨BitVec.ofNat 3 (val (b.take 3)), .ofCode (Fin.ofNat 8 (val ((b.drop 3).take 3))), ?_⟩
  rw [headerBits, code_ofCode _ ht, BitVec.toNat_ofNat, Nat.mod_eq_of_lt hv, List.append_assoc]
  rw [List.drop_drop] at type
  rwa [← type]

/-! ### What the decoder does behind a header -/

theorem decode_header_literal (v : Version) (b : Bits) :
    decode (headerBits v .literal ++ b) = decodeFirstGroup v b := by
  simp only [decode, headerBits, List.append_assoc, field_bitsOf_append v.isLt, field_bitsOf_append (code_lt .literal),
    ofCode_code, BitVec.ofNat_toNat, BitVec.setWidth_eq]

theorem decode_header_operator {t : PacketType} (operator : t ≠ .literal) (v : Version) (b : Bits) :
    decode (headerBits v t ++ b) = decodeFraming (.ofFields v t false) (.ofFields v t true) b := by
  simp only [decode, headerBits, List.append_assoc, field_bitsOf_append v.isLt, field_bitsOf_append (code_lt t),
    ofCode_code, BitVec.ofNat_toNat, BitVec.setWidth_eq]
  cases t with
  | literal => exact absurd rfl operator
  | _ => rfl

/-- Nothing follows the header: its flag or lengthMode is missing (R122). -/
theorem decode_header (v : Version) (t : PacketType) :
    decode (headerBits v t) = .error (.insufficientBits 6) := by
  rw [← List.append_nil (headerBits v t)]
  by_cases literal : t = .literal
  · subst literal; rw [decode_header_literal]; rfl
  · rw [decode_header_operator literal]; rfl

theorem field_one_cons (x : Bool) (b : Bits) : field 1 (x :: b) = some (x.toNat, b) := by
  cases x <;> rfl

/-- Behind the header and the bit after it, decoding is reading the last field (R72 to R74, R122). -/
theorem decode_header_cons (v : Version) (t : PacketType) (flag : Bool) (b : Bits) :
    decode (headerBits v t ++ flag :: b) =
      (field (lastWidth t flag) b).elim (.error (.insufficientBits 7)) fun f => .ok (.ofFields v t flag f.1, f.2) := by
  by_cases literal : t = .literal
  · subst literal
    rw [decode_header_literal, decodeFirstGroup, field_one_cons, lastWidth, if_pos rfl]
    dsimp only
    cases flag <;> cases field 4 b <;> rfl
  · rw [decode_header_operator literal, decodeFraming, field_one_cons, lastWidth, if_neg literal]
    cases flag with
    | false => cases h : field 15 b <;> simp [h]
    | true => cases h : field 11 b <;> simp [h]

theorem decode_encode {i : Instr} (wellFormed : i.wellFormed = true) (rest : Bits) :
    decode (encode i ++ rest) = .ok (i, rest) := by
  obtain ⟨v, t, flag, n, rfl⟩ := i.exists_ofFields
  rw [wellFormed_ofFields] at wellFormed
  rw [encode_ofFields, List.append_assoc, List.cons_append, decode_header_cons, field_bitsOf_append wellFormed]
  rfl

/-- Everything the decoder can do: the first field that does not fit is missing, or the sequence begins with the
encoding of a well-formed instruction (R82, R122). -/
inductive Decodes : Bits → Except DecodeError (Instr × Bits) → Prop
  | noVersion {b : Bits} : b.length < 3 → Decodes b (.error (.insufficientBits 0))
  | noType {b : Bits} : 3 ≤ b.length → b.length < 6 → Decodes b (.error (.insufficientBits 3))
  | noFlag (v : Version) (t : PacketType) : Decodes (headerBits v t) (.error (.insufficientBits 6))
  | noLast (v : Version) (t : PacketType) (flag : Bool) {b : Bits} : b.length < lastWidth t flag →
    Decodes (headerBits v t ++ flag :: b) (.error (.insufficientBits 7))
  | instr {v : Version} {t : PacketType} {flag : Bool} {n : Nat} (rest : Bits) : n < 2 ^ lastWidth t flag →
    Decodes (encode (.ofFields v t flag n) ++ rest) (.ok (.ofFields v t flag n, rest))

theorem decodes_decode (b : Bits) : Decodes b (decode b) := by
  by_cases version : b.length < 3
  · rw [decode, field_eq_none.mpr version]
    exact .noVersion version
  by_cases type : b.length < 6
  · have short : field 3 (b.drop 3) = none := field_eq_none.mpr (by simp; omega)
    rw [decode, field, if_neg version]; dsimp only
    rw [short]
    exact .noType (by omega) type
  obtain ⟨v, t, header⟩ := exists_header (Nat.le_of_not_lt type)
  rw [header]
  cases b.drop 6 with
  | nil => rw [List.append_nil, decode_header]; exact .noFlag v t
  | cons flag b =>
    rw [decode_header_cons]
    cases last : field (lastWidth t flag) b with
    | none => exact .noLast v t flag (field_eq_none.mp last)
    | some f =>
      obtain ⟨fits, rfl⟩ := field_eq_some.mp last
      have bits := encode_ofFields v t flag f.1
      rw [← List.cons_append, ← List.append_assoc, ← bits]
      exact .instr f.2 fits

/-- A header's type is a Literal's exactly when its code is 4 (R22). -/
theorem val_type_header (v : Version) (t : PacketType) (b : Bits) :
    val (((headerBits v t ++ b).drop 3).take 3) = 4 ↔ t = .literal := by
  have type : ((headerBits v t ++ b).drop 3).take 3 = bitsOf t.code 3 := by
    simp [headerBits, List.append_assoc]
  rw [type, val_bitsOf (code_lt t)]
  cases t <;> decide

/-- How long an instruction is, told from its header and the bit after it (R72 to R74). -/
theorem size_header (v : Version) (t : PacketType) (flag : Bool) (b : Bits) :
    (if val (((headerBits v t ++ flag :: b).drop 3).take 3) = 4 then 11
      else if (headerBits v t ++ flag :: b)[6]? = some true then 18 else 22) = 7 + lastWidth t flag := by
  have bit : (headerBits v t ++ flag :: b)[6]? = some flag := by
    rw [List.getElem?_append_right (by simp)]; simp
  simp only [val_type_header, bit, lastWidth]
  cases flag <;> split <;> simp

end Sys2Proof

open Sys2Proof

/-- Settles O1. -/
theorem decodeOfEncodeIsTheInstruction : Obligations.DecodeOfEncodeIsTheInstruction :=
  fun _ rest wellFormed => decode_encode wellFormed rest

/-- Settles O2. -/
theorem decodedBitsAreTheEncoding : Obligations.DecodedBitsAreTheEncoding := by
  intro b rest i h
  have d := decodes_decode b
  rw [h] at d
  cases d with
  | instr rest fits =>
    exact ⟨(wellFormed_ofFields ..).mpr fits, rfl, by rw [length_encode_ofFields, prefixBits_ofFields]⟩

/-- Settles O3, by the cases of what the decoder can do: each has its own number of bits. -/
theorem onlyATruncatedPrefixIsRejected : Obligations.OnlyATruncatedPrefixIsRejected := by
  intro b size hsize
  generalize hr : decode b = r
  have d := decodes_decode b
  rw [hr] at d
  have least : 11 ≤ size := by rw [hsize]; split <;> [skip; split] <;> omega
  cases d with
  | noVersion short =>
    exact ⟨fun _ => rfl, by omega, by omega, by omega, by omega⟩
  | noType version short =>
    exact ⟨by omega, fun _ _ => rfl, by omega, by omega, by omega⟩
  | noFlag v t =>
    rw [length_headerBits]
    exact ⟨by omega, by omega, fun _ => rfl, by omega, by omega⟩
  | @noLast v t flag b short =>
    rw [size_header] at hsize
    have length : (headerBits v t ++ flag :: b).length = 7 + b.length := by simp; omega
    rw [length]
    exact ⟨by omega, by omega, by omega, fun _ _ => rfl, by omega⟩
  | @instr v t flag n rest fits =>
    have length := length_encode_ofFields v t flag n
    have size_eq : size = 7 + lastWidth t flag := by
      rw [hsize, encode_ofFields, List.append_assoc, List.cons_append, size_header]
    rw [List.length_append, length]
    refine ⟨by omega, by omega, by omega, by omega, fun _ => ⟨.ofFields v t flag n, ?_, ?_⟩⟩
    · rw [List.drop_left' (length.trans size_eq.symm)]
    · rw [prefixBits_ofFields, size_eq]
end

section
/-! PROOF. What a LITERAL with all its groups does, what an operator's header opens (R123, R125), and what a DECODEOUTER
is made of (R138). -/

namespace Sys2Proof.Machine

/-- A chunk and the groups that stand at POS behind it are accumulated as base-16 digits, and the Literal is delivered
after the last (R78, R123). -/
theorem afterChunk_of_groups (version : Version) {more : List Nat} (small : ∀ d ∈ more, d < 16) {rest : Bits}
    {chunk fuel : Nat} {s : State} (stands : s.buf.drop s.pos = groups more ++ rest) (fuelled : more.length ≤ fuel)
    (narrow : tooWide (valueOf s.acc (chunk :: more)) s.cfg.valueBits = false) :
    afterChunk version (literalGroups version fuel) (decide (more ≠ [])) chunk s =
      State.deliver (.lit version (valueOf s.acc (chunk :: more)))
        { s with pos := s.pos + 5 * more.length, acc := 0 } := by
  induction more generalizing chunk fuel s with
  | nil => exact afterChunk_of_fits narrow
  | cons d more ih =>
    have fits : tooWide (s.acc * 16 + chunk) s.cfg.valueBits = false := tooWide_mono (le_valueOf _ (d :: more)) narrow
    obtain ⟨fuel, rfl⟩ := Nat.exists_eq_succ_of_ne_zero (Nat.ne_zero_of_lt fuelled)
    rw [groups_cons, List.append_assoc] at stands
    obtain ⟨group, behind⟩ := literalGroups_of_group (s := { s with acc := s.acc * 16 + chunk }) version fuel
      (decide (more ≠ [])) (small d (by simp)) stands
    have ends : s.pos + 5 * (d :: more).length = s.pos + 5 + 5 * more.length := by
      simp only [List.length_cons]; omega
    rw [afterChunk_of_fits fits, if_pos (by simp), group, ends]
    exact ih (fun x hx => small x (.tail d hx)) (s := { s with pos := s.pos + 5, acc := s.acc * 16 + chunk }) behind
      (by simpa using fuelled) narrow

/-- An admitted LITERAL whose further groups stand behind it delivers its value after the last of them. -/
theorem exec_literal_of_groups {s : State} (admits : s.admits = true) (version : Version) {chunk : Nat}
    {more : List Nat} (small : ∀ d ∈ more, d < 16) {rest : Bits}
    (stands : s.buf.drop (s.pos + 11) = groups more ++ rest)
    (narrow : tooWide (valueOf 0 (chunk :: more)) s.cfg.valueBits = false) :
    exec (.literal version (decide (more ≠ [])) chunk) s =
      .next (State.deliver (.lit version (valueOf 0 (chunk :: more)))
        { s with pos := s.pos + 11 + 5 * more.length, npkt := s.npkt + 1, acc := 0 }) := by
  have left := congrArg List.length stands
  simp only [List.length_drop, List.length_append, length_groups] at left
  have groups := afterChunk_of_groups version small (fuel := s.remaining)
    (s := { s with pos := s.pos + 11, npkt := s.npkt + 1, acc := 0 }) stands
    (by simp only [State.remaining, State.len]; omega) narrow
  rw [exec, execLiteral, enter_of_admits admits]
  exact congrArg _ groups

/-- An operator's `.T` instruction is the mode-0 opening of its type (R127 to R133). -/
theorem exec_ofFields_total {t : PacketType} (operator : t ≠ .literal) (v : Version) (n : Nat) (s : State) :
    exec (.ofFields v t false n) s = openTotal t v n s := by
  cases t with
  | literal => exact absurd rfl operator
  | _ => rfl

/-- An operator's `.C` instruction is the mode-1 opening of its type (R127 to R133). -/
theorem exec_ofFields_count {t : PacketType} (operator : t ≠ .literal) (v : Version) (n : Nat) (s : State) :
    exec (.ofFields v t true n) s = openCount t v n s := by
  cases t with
  | literal => exact absurd rfl operator
  | _ => rfl

theorem openTotal_of_pos {s : State} (admits : s.admits = true) {total : Nat} (positive : 0 < total) (t : PacketType)
    (v : Version) : openTotal t v total s = .next (openedTotal t v total s) := by
  have wants : Frame.status (s.pos + 22) ⟨v, t, .total total (s.pos + 22), .nil⟩ = .wantsChild :=
    if_pos (by omega)
  rw [openTotal, enter_of_admits admits]
  exact congrArg _ (resume_of_wantsChild wants)

theorem openCount_of_pos {s : State} (admits : s.admits = true) {count : Nat} (positive : 0 < count) (t : PacketType)
    (v : Version) : openCount t v count s = .next (openedCount t v count s) := by
  have wants : Frame.status (s.pos + 18) ⟨v, t, .count count, .nil⟩ = .wantsChild := if_pos positive
  rw [openCount, enter_of_admits admits]
  exact congrArg _ (resume_of_wantsChild wants)

/-! ### DECODEOUTER -/

/-- LOADHEX leaves POS at 0, succeeding or not (R100). -/
theorem loadHex_pos (text : List Char) (s : State) : (loadHex text s).pos = 0 := by
  unfold loadHex
  split <;> rfl

theorem decodeOuter_of_failed_load {text : List Char} {s : State} (failed : (loadHex text s).err ≠ .ok) :
    command (.decodeOuter text) s = loadHex text s :=
  if_neg failed

theorem decodeOuter_of_load {text : List Char} {s : State} (loaded : (loadHex text s).err = .ok) :
    command (.decodeOuter text) s = (loadHex text s).beginDecode .decodeOuter :=
  if_pos loaded

end Sys2Proof.Machine

open Sys2Proof Sys2Proof.Machine

/-- Settles O10: with no frame open the delivered Literal is the outer packet. -/
theorem outerLiteralIsDelivered : Obligations.OuterLiteralIsDelivered := by
  intro s version chunk more rest admits frames small stands narrow
  rw [exec_literal_of_groups admits version small stands narrow]
  simp only [State.deliver, frames]
  rfl

/-- Settles O14: the section of a positive total still lacks bits. -/
theorem totalHeaderOpensAFrame : Obligations.TotalHeaderOpensAFrame := by
  intro s version total admits positive
  have opens (t : PacketType) (operator : t ≠ .literal) :
      exec (.ofFields version t false total) s = .next (openedTotal t version total s) :=
    (exec_ofFields_total operator ..).trans (openTotal_of_pos admits positive ..)
  exact ⟨opens .sum nofun, opens .product nofun, opens .minimum nofun, opens .maximum nofun, opens .greaterThan nofun,
    opens .lessThan nofun, opens .equalTo nofun⟩

/-- Settles O15: the section of a positive count still lacks children. -/
theorem countHeaderOpensAFrame : Obligations.CountHeaderOpensAFrame := by
  intro s version count admits positive
  have opens (t : PacketType) (operator : t ≠ .literal) :
      exec (.ofFields version t true count) s = .next (openedCount t version count s) :=
    (exec_ofFields_count operator ..).trans (openCount_of_pos admits positive ..)
  exact ⟨opens .sum nofun, opens .product nofun, opens .minimum nofun, opens .maximum nofun, opens .greaterThan nofun,
    opens .lessThan nofun, opens .equalTo nofun⟩

/-- Settles O23: a loaded DECODEOUTER is a decode just begun at bit 0, which the fuel of R137 lasts for. -/
theorem decodeOuterComposesLoadAndDecode : Obligations.DecodeOuterComposesLoadAndDecode := by
  intro s text idle
  constructor
  · intro failed
    have same := decodeOuter_of_failed_load failed
    have idle' : (loadHex text s).running = .idle := (loadHex_running text s).trans idle
    rw [commandAtOnce_of_idle (same ▸ idle'), same]
    exact (commandAtOnce_of_idle (c := .loadHex text) idle').symm
  · intro loaded l
    have begun : commandAtOnce (.decodeOuter text) s = (l.beginDecode .decodeOuter).decodeAtOnce :=
      commandAtOnce_of_begins (by decide) (decodeOuter_of_load loaded)
    have call : (l.beginDecode .decodeOuter).decOuter = dec l.cfg l.buf (l.buf.length + 1) 1 0 0 := by
      have start : l.pos = 0 := loadHex_pos text s
      simp [State.decOuter, State.decFuel, State.remaining, State.len, start]
    obtain ⟨t, ends, -⟩ := reaches_decodeAtOnce (r := .decodeOuter) l (by decide)
    rw [begun, State.decodeAtOnce, call]
    rw [State.decodeAtOnce, call] at ends
    cases h : dec l.cfg l.buf (l.buf.length + 1) 1 0 0 with
    | done p pos npkt => rfl
    | raised e sub pos => rfl
    | exhausted => rw [h] at ends; cases ends
end

section
/-! PROOF. The digits of a value are Mathlib's base-16 digits, most significant first (R79). -/

namespace Sys2Proof.Machine

theorem digitsOnto_eq {value : Nat} (nonzero : value ≠ 0) {fuel : Nat} (fuelled : value < 16 ^ (fuel + 1))
    (tail : List Nat) : digitsOnto fuel value tail = (Nat.digits 16 value).reverse ++ tail := by
  induction fuel generalizing value tail with
  | zero =>
    have small : value < 16 := by simpa using fuelled
    rw [digitsOnto, Nat.mod_eq_of_lt small, Nat.digits_of_lt 16 value nonzero small]; rfl
  | succ fuel ih =>
    unfold digitsOnto
    split
    · rename_i small
      rw [Nat.digits_of_lt 16 value nonzero small]; rfl
    · rw [ih (by omega) (by rw [pow_succ] at fuelled; omega), Nat.digits_def' (n := value) (by decide) (by omega)]
      simp

theorem digits_eq {value : Nat} (nonzero : value ≠ 0) : digits value = (Nat.digits 16 value).reverse := by
  have fuelled : value < 16 ^ (value.log2 + 1) :=
    Nat.lt_log2_self.trans_le (Nat.pow_le_pow_left (by decide) _)
  rw [digits, digitsOnto_eq nonzero fuelled, List.append_nil]

theorem digits_head_ne_zero {value : Nat} (nonzero : value ≠ 0) : (digits value).head? ≠ some 0 := by
  rw [digits_eq nonzero, List.head?_reverse, List.getLast?_eq_some_getLast (Nat.digits_ne_nil_iff_ne_zero.mpr nonzero)]
  exact fun h => Nat.getLast_digit_ne_zero 16 nonzero (Option.some.inj h)

/-- One digit for four bits, the first for the up to four that are left (R79). -/
theorem length_digits {value : Nat} (nonzero : value ≠ 0) : (digits value).length = value.log2 / 4 + 1 := by
  rw [digits_eq nonzero, List.length_reverse, Nat.length_digits 16 value (by decide) nonzero, Nat.log2_eq_log_two]
  exact congrArg (· + 1) (Nat.log_pow_left 2 4 value)

theorem valueOf_eq_ofDigits (ds : List Nat) : valueOf 0 ds = Nat.ofDigits 16 ds.reverse := by
  rw [Nat.ofDigits_eq_foldr, List.foldr_reverse, valueOf]
  congr 1
  funext value chunk
  simp [Nat.add_comm, Nat.mul_comm]

/-- No digits of a value are fewer than `digits` gives it. -/
theorem length_digits_valueOf_le {ds : List Nat} (nonempty : ds ≠ []) (small : ∀ d ∈ ds, d < 16) :
    (digits (valueOf 0 ds)).length ≤ ds.length := by
  by_cases zero : valueOf 0 ds = 0
  · rw [zero]
    exact List.length_pos_iff.mpr nonempty
  · have bound : valueOf 0 ds < 16 ^ ds.length := by
      rw [valueOf_eq_ofDigits, ← List.length_reverse]
      exact Nat.ofDigits_lt_base_pow_length (by decide) (by simpa using small)
    rw [digits_eq zero, List.length_reverse]
    exact (Nat.digits_length_le_iff (by decide) _).mpr bound

/-- Digits as many as `digits` gives are the ones it gives. -/
theorem digits_valueOf {ds : List Nat} (small : ∀ d ∈ ds, d < 16)
    (length : (digits (valueOf 0 ds)).length = ds.length) : digits (valueOf 0 ds) = ds := by
  have same : valueOf 0 (digits (valueOf 0 ds)) = valueOf 0 ds := valueOf_digits _
  rw [valueOf_eq_ofDigits, valueOf_eq_ofDigits ds] at same
  refine List.reverse_injective (Nat.ofDigits_inj_of_len_eq (b := 16) (by decide) ?_ ?_ ?_ ?_)
  · simpa using length
  · simpa using digits_lt _
  · simpa using small
  · rwa [← valueOf_eq_ofDigits ds] at same ⊢

end Sys2Proof.Machine

open Sys2Proof Sys2Proof.Machine

/-- Settles O40, by Mathlib's digits in base 16. -/
theorem digitsAreMinimal : Obligations.DigitsAreMinimal := by
  intro value
  refine ⟨valueOf_digits value, digits_lt value, digits_head_ne_zero, rfl, ?_⟩
  by_cases zero : value = 0
  · subst zero; rfl
  · rw [length_digits zero, if_neg zero]; omega
end

section
/-! PROOF. The length of an encoding (R77, R163 to R165). -/

namespace Sys2Proof.Machine

/-- An operator is encoded when its children are and its own number fits its field (R162). -/
theorem enc_op_eq_ok {policy : EncPolicy} {v : Version} {t : PacketType} {m : LengthMode} {cs : Packets} {b : Bits} :
    enc policy (.op v t m cs) = .ok b ↔ ∃ body, encAll policy cs = .ok body ∧
      encOperator v t (effectiveMode policy m) (Packets.length cs) body = .ok b := by
  rw [enc]
  cases encAll policy cs <;> simp

/-- Children are encoded back to back (R162). -/
theorem encAll_cons_eq_ok {policy : EncPolicy} {c : Packet} {cs : Packets} {b : Bits} :
    encAll policy (.cons c cs) = .ok b ↔
      ∃ first others, enc policy c = .ok first ∧ encAll policy cs = .ok others ∧ b = first ++ others := by
  rw [encAll]
  cases enc policy c with
  | error e => simp
  | ok first => cases encAll policy cs <;> simp [eq_comm]

theorem length_encOperator {v : Version} {t : PacketType} {m : LengthMode} {count : Nat} {body b : Bits} {cs : Packets}
    (e : encOperator v t m count body = .ok b) (length : body.length = plenAll cs) :
    b.length = plen (.op v t m cs) := by
  rcases encOperator_eq_ok e with ⟨rfl, -, rfl⟩ | ⟨rfl, -, rfl⟩
  · rw [List.length_append, Laws.EncodedLength.total_length, plen, length]
  · rw [List.length_append, Laws.EncodedLength.count_length, plen, length]

mutual

/-- An encoding is as long as the packet is with the modes it is encoded in (R77). -/
theorem length_enc {policy : EncPolicy} : ∀ {p : Packet} {b : Bits}, enc policy p = .ok b →
    b.length = plen (withModes policy p)
  | .lit v value, b, e => by
    cases e
    rw [List.length_append, length_headerBits, length_groups, withModes, plen]
  | .op v t m cs, b, e => by
    obtain ⟨body, children, operator⟩ := enc_op_eq_ok.mp e
    exact length_encOperator operator (length_encAll children)

theorem length_encAll {policy : EncPolicy} : ∀ {cs : Packets} {b : Bits}, encAll policy cs = .ok b →
    b.length = plenAll (withModesAll policy cs)
  | .nil, _, e => by cases e; rfl
  | .cons c cs, b, e => by
    obtain ⟨first, others, one, rest, rfl⟩ := encAll_cons_eq_ok.mp e
    rw [List.length_append, length_enc one, length_encAll rest, withModesAll, plenAll]

end

mutual

/-- FORCE_COUNT leaves a tree alone whose modes are all 1 (R162). -/
theorem withModes_of_modesAre : ∀ {p : Packet}, modesAre .immediateCount p = true → withModes .forceCount p = p
  | .lit _ _, _ => rfl
  | .op _ _ _ cs, h => by
    simp only [modesAre, Bool.and_eq_true, decide_eq_true_eq] at h
    rw [withModes, withModesAll_of_modesAreAll h.2, h.1, effectiveMode]

theorem withModesAll_of_modesAreAll : ∀ {cs : Packets}, modesAreAll .immediateCount cs = true →
    withModesAll .forceCount cs = cs
  | .nil, _ => rfl
  | .cons c cs, h => by
    simp only [modesAreAll, Bool.and_eq_true] at h
    rw [withModesAll, withModes_of_modesAre h.1, withModesAll_of_modesAreAll h.2]

end

end Sys2Proof.Machine

open Sys2Proof Sys2Proof.Machine

/-- Settles O41: neither policy changes the modes of the packets it is said of. -/
theorem encodingHasThePacketsLength : Obligations.EncodingHasThePacketsLength := by
  refine fun p b => ⟨fun e => ?_, fun e modes => ?_⟩
  · rw [length_enc e, withModes_retain]
  · rw [length_enc e, withModes_of_modesAre modes]
end

section
/-! PROOF. The other direction of the round trip, R168 (d): a packet the recursive decoder returns encodes under RETAIN
to no more bits than it was read from, and to those when to as many. -/

namespace Sys2Proof.Machine

/-! ### The bits between two positions -/

/-- The bits of a buffer from pos up to pos'. -/
def bitsBetween (buf : Bits) (pos pos' : Nat) : Bits :=
  (buf.drop pos).take (pos' - pos)

theorem bitsBetween_append (buf : Bits) {o p q : Nat} (hop : o ≤ p) (hpq : p ≤ q) :
    bitsBetween buf o p ++ bitsBetween buf p q = bitsBetween buf o q := by
  have split : q - o = p - o + (q - p) := by omega
  rw [bitsBetween, bitsBetween, bitsBetween, split, List.take_add, List.drop_drop, Nat.add_sub_cancel' hop]

theorem bitsBetween_of_drop {buf x rest : Bits} {pos : Nat} (h : buf.drop pos = x ++ rest) :
    bitsBetween buf pos (pos + x.length) = x := by
  rw [bitsBetween, h, Nat.add_sub_cancel_left, List.take_left]

/-- A popped value's bits are the ones between where it starts and where it ends (R101). -/
theorem bitsBetween_of_popAt {buf : Bits} {pos n v : Nat} (h : popAt buf pos n = some v) :
    v < 2 ^ n ∧ bitsBetween buf pos (pos + n) = bitsOf v n := by
  obtain ⟨inside, rfl⟩ := popAt_eq_some.mp h
  rw [bitsBetween, Nat.add_sub_cancel_left, bitsOf_memRead inside]
  exact ⟨memRead_lt .., rfl⟩

/-- A popped flag is the one bit that stands there. -/
theorem bitsBetween_of_flag {buf : Bits} {pos v : Nat} (h : popAt buf pos 1 = some v) :
    bitsBetween buf pos (pos + 1) = [decide (v ≠ 0)] := by
  obtain ⟨hv, bits⟩ := bitsBetween_of_popAt h
  rw [bits]
  interval_cases v <;> rfl

/-- A popped flag and the field popped behind it, back to back. -/
theorem bitsBetween_of_flag_field {buf : Bits} {pos flag n v : Nat} (hflag : popAt buf pos 1 = some flag)
    (hfield : popAt buf (pos + 1) n = some v) :
    bitsBetween buf pos (pos + (1 + n)) = decide (flag ≠ 0) :: bitsOf v n := by
  rw [← Nat.add_assoc, ← bitsBetween_append buf (Nat.le_add_right pos 1) (Nat.le_add_right _ n),
    bitsBetween_of_flag hflag, (bitsBetween_of_popAt hfield).2, List.singleton_append]

/-- b is no longer than what stands between pos and pos', and is just that when it is as long. -/
structure FillsAtMost (buf : Bits) (pos pos' : Nat) (b : Bits) : Prop where
  le : b.length ≤ pos' - pos
  eq : b.length = pos' - pos → b = bitsBetween buf pos pos'

/-- Bits back to back; the first need be what stands there only where the second are as long as they may be. -/
theorem FillsAtMost.append {buf b₁ b₂ : Bits} {o p q : Nat} (hop : o ≤ p) (hpq : p ≤ q) (le : b₁.length ≤ p - o)
    (eq : b₁.length = p - o → b₂.length = q - p → b₁ = bitsBetween buf o p) (second : FillsAtMost buf p q b₂) :
    FillsAtMost buf o q (b₁ ++ b₂) := by
  have second_le := second.le
  constructor
  · rw [List.length_append]; omega
  · rw [List.length_append]
    intro length
    rw [eq (by omega) (by omega), second.eq (by omega), bitsBetween_append buf hop hpq]

/-! ### What the decoder read -/

/-- A Literal that is returned was read from its groups, with a value that is their chunks' (R72, R78, R123). -/
theorem decGroups_chunks {cfg : Config} {buf : Bits} {v : Version} {fuel start pos npkt pos' npkt' : Nat} {p : Packet}
    (h : decGroups cfg buf v fuel start pos npkt = .done p pos' npkt') :
    ∃ ds, ds ≠ [] ∧ (∀ d ∈ ds, d < 16) ∧ p = .lit v (valueOf start ds) ∧ pos' = pos + 5 * ds.length ∧
      bitsBetween buf pos pos' = groups ds := by
  induction fuel generalizing start pos with
  | zero => cases h
  | succ fuel ih =>
    unfold decGroups at h
    split at h
    · cases h
    · rename_i flag hflag
      split at h
      · cases h
      · rename_i chunk hchunk
        have small : chunk < 16 := (bitsBetween_of_popAt hchunk).1
        have group := bitsBetween_of_flag_field hflag hchunk
        split at h
        · cases h
        · split at h
          · rename_i last
            cases h
            exact ⟨[chunk], by simp, by simpa using small, rfl, rfl, by rw [group, last]; rfl⟩
          · rename_i further
            obtain ⟨ds, nonempty, others, value, rfl, bits⟩ := ih h
            refine ⟨chunk :: ds, by simp, by simpa [small] using others, value, ?_, ?_⟩
            · simp only [List.length_cons]; omega
            · rw [groups_cons, groupBits, decide_eq_true nonempty, ← bits,
                ← bitsBetween_append buf (p := pos + 5) (by omega) (by omega), group, decide_eq_true further]

/-- What `dec` returns, with the header it was read from (R71, R122). -/
theorem dec_header {cfg : Config} {buf : Bits} {fuel d pos npkt pos' npkt' : Nat} {p : Packet}
    (h : dec cfg buf (fuel + 1) d pos npkt = .done p pos' npkt') :
    ∃ v t, bitsBetween buf pos (pos + 6) = headerBits v t ∧
      (t = .literal ∧ decGroups cfg buf v (buf.length - pos) 0 (pos + 6) (npkt + 1) = .done p pos' npkt' ∨
        t ≠ .literal ∧
          decOperator buf (dec cfg buf fuel (d + 1)) fuel v t (pos + 6) (npkt + 1) = .done p pos' npkt') := by
  obtain ⟨consumes, inside, -⟩ := dec_bounded h
  obtain ⟨entered, -⟩ := dec_done h
  obtain ⟨v, t, header⟩ := exists_header (b := buf.drop pos) (by simp; omega)
  obtain ⟨-, decoded⟩ := dec_of_header header entered fuel
  rw [decoded] at h
  refine ⟨v, t, bitsBetween_of_drop header, ?_⟩
  split at h
  · exact .inl ⟨‹_›, h⟩
  · exact .inr ⟨‹_›, h⟩

theorem decClose_done {v : Version} {t : PacketType} {m : LengthMode} {children : Parse Packets} {pos' npkt' : Nat}
    {p : Packet} (h : decClose v t m children = .done p pos' npkt') :
    ∃ cs, children = .done cs pos' npkt' ∧ p = .op v t m cs := by
  unfold decClose at h
  split at h
  · split at h <;> cases h
    exact ⟨_, rfl, rfl⟩
  · cases h
  · cases h

/-- The mode-0 loop returns where the total is used up (R125, R126). -/
theorem decTotal_end {child : Nat → Nat → Parse Packet} {total start fuel : Nat} {cs cs' : Packets}
    {pos npkt pos' npkt' : Nat} (h : decTotal child total start fuel cs pos npkt = .done cs' pos' npkt') :
    pos' - start = total := by
  induction fuel generalizing cs pos npkt with
  | zero =>
    unfold decTotal at h
    split at h
    · cases h
    · split at h <;> cases h
      omega
  | succ fuel ih =>
    unfold decTotal at h
    split at h
    · dsimp only at h
      split at h
      · exact ih h
      · cases h
      · cases h
    · split at h <;> cases h
      omega

/-- The mode-1 loop returns as many children as the count (R125). -/
theorem decCount_length {child : Nat → Nat → Parse Packet} {n : Nat} {cs cs' : Packets} {pos npkt pos' npkt' : Nat}
    (h : decCount child n cs pos npkt = .done cs' pos' npkt') : Packets.length cs' = Packets.length cs + n := by
  induction n generalizing cs pos npkt with
  | zero => cases h; rfl
  | succ n ih =>
    unfold decCount at h
    split at h
    · rw [ih h, length_snoc]; omega
    · cases h
    · cases h

/-- How an operator's framing tells the children section that starts at `start` and ends at pos': its length under mode
0, the number of children under mode 1 (R73, R74). -/
def FramedBy (buf : Bits) (pos : Nat) (mode : LengthMode) (cs : Packets) (start pos' : Nat) : Prop :=
  match mode with
  | .totalBits => start = pos + 16 ∧ pos' - start < 2 ^ 15 ∧
      bitsBetween buf pos start = LengthMode.totalBits.bit :: bitsOf (pos' - start) 15
  | .immediateCount => start = pos + 12 ∧ Packets.length cs < 2 ^ 11 ∧
      bitsBetween buf pos start = LengthMode.immediateCount.bit :: bitsOf (Packets.length cs) 11

/-- What an operator's decoding returns, with the framing it was read from (R125). -/
theorem decOperator_framing {buf : Bits} {child : Nat → Nat → Parse Packet} {fuel pos npkt pos' npkt' : Nat}
    {v : Version} {t : PacketType} {p : Packet} (h : decOperator buf child fuel v t pos npkt = .done p pos' npkt') :
    ∃ start mode cs, FramedBy buf pos mode cs start pos' ∧ Reads child .nil start npkt cs pos' npkt' ∧
      p = .op v t mode cs := by
  unfold decOperator at h
  split at h
  · cases h
  · rename_i mode hmode
    split at h <;> rename_i zero <;> split at h
    · cases h
    · rename_i total htotal
      obtain ⟨cs, loop, rfl⟩ := decClose_done h
      have ends := decTotal_end loop
      refine ⟨pos + 16, .totalBits, cs, ⟨rfl, ?_, ?_⟩, reads_of_decTotal loop, rfl⟩ <;> rw [ends]
      · exact (bitsBetween_of_popAt htotal).1
      · rw [bitsBetween_of_flag_field hmode htotal, zero]; rfl
    · cases h
    · rename_i n hn
      obtain ⟨cs, loop, rfl⟩ := decClose_done h
      have length : Packets.length cs = n := (decCount_length loop).trans (Nat.zero_add n)
      refine ⟨pos + 12, .immediateCount, cs, ⟨rfl, ?_, ?_⟩, reads_of_decCount loop, rfl⟩ <;> rw [length]
      · exact (bitsBetween_of_popAt hn).1
      · rw [bitsBetween_of_flag_field hmode hn, decide_eq_true zero]; rfl

/-! ### What is written back -/

/-- The encoder, given what was read between pos and pos', has written no more than those bits. -/
def Reencodes (buf : Bits) (pos pos' : Nat) (written : Except Raised Bits) : Prop :=
  ∃ b, written = .ok b ∧ FillsAtMost buf pos pos' b

theorem reencodes_nil (buf : Bits) (pos : Nat) : Reencodes buf pos pos (encAll .retain .nil) :=
  ⟨[], rfl, Nat.zero_le _, fun _ => by simp [bitsBetween]⟩

theorem encAll_snoc {policy : EncPolicy} {c : Packet} {b : Bits} (one : enc policy c = .ok b) :
    ∀ {cs : Packets} {bs : Bits}, encAll policy cs = .ok bs → encAll policy (Packets.snoc cs c) = .ok (bs ++ b)
  | .nil, _, e => by
    cases e
    exact encAll_cons_eq_ok.mpr ⟨b, [], one, rfl, by simp⟩
  | .cons d ds, _, e => by
    obtain ⟨first, others, hd, hds, rfl⟩ := encAll_cons_eq_ok.mp e
    exact encAll_cons_eq_ok.mpr ⟨first, others ++ b, hd, encAll_snoc one hds, by simp⟩

/-- Children that each encode to no more than was read of them do so together, after those already read. -/
theorem Reads.reencodes {buf : Bits} {child : Nat → Nat → Parse Packet} (progress : Progress child)
    (one : ∀ {pos npkt p pos' npkt'}, child pos npkt = .done p pos' npkt' → Reencodes buf pos pos' (enc .retain p))
    {cs cs' : Packets} {pos npkt pos' npkt' : Nat} (r : Reads child cs pos npkt cs' pos' npkt') {start : Nat}
    (hs : start ≤ pos) (before : Reencodes buf start pos (encAll .retain cs)) :
    Reencodes buf start pos' (encAll .retain cs') := by
  induction r with
  | refl => exact before
  | step e _ ih =>
    have moved := (progress e).le
    obtain ⟨bs, wrote, fills⟩ := before
    obtain ⟨b, wrote', fills'⟩ := one e
    exact ih (hs.trans moved)
      ⟨_, encAll_snoc wrote' wrote, .append hs moved fills.le (fun length _ => fills.eq length) fills'⟩

/-- A Literal is written back with the fewest groups its value takes (R79, R163). -/
theorem reencodes_lit {buf : Bits} {v : Version} {ds : List Nat} {pos : Nat} (nonempty : ds ≠ [])
    (small : ∀ d ∈ ds, d < 16) (header : bitsBetween buf pos (pos + 6) = headerBits v .literal)
    (bits : bitsBetween buf (pos + 6) (pos + 6 + 5 * ds.length) = groups ds) :
    Reencodes buf pos (pos + 6 + 5 * ds.length) (enc .retain (.lit v (valueOf 0 ds))) := by
  have fewest := length_digits_valueOf_le nonempty small
  refine ⟨_, rfl, .append (p := pos + 6) (by omega) (by omega) (by simp) (fun _ _ => header.symm)
    ⟨?_, fun length => ?_⟩⟩
  · rw [length_groups]; omega
  · rw [length_groups] at length
    rw [bits, digits_valueOf small (by omega)]

/-- An operator whose children are written back is written back behind its own header (R164, R165). -/
theorem reencodes_op {buf : Bits} {v : Version} {t : PacketType} {mode : LengthMode} {cs : Packets}
    {pos start pos' : Nat} (header : bitsBetween buf pos (pos + 6) = headerBits v t)
    (framed : FramedBy buf (pos + 6) mode cs start pos') (hs : start ≤ pos')
    (children : Reencodes buf start pos' (encAll .retain cs)) :
    Reencodes buf pos pos' (enc .retain (.op v t mode cs)) := by
  obtain ⟨body, wrote, fills⟩ := children
  have prefixed (h : pos + 6 ≤ start) :
      bitsBetween buf pos start = headerBits v t ++ bitsBetween buf (pos + 6) start := by
    rw [← header, bitsBetween_append buf (by omega) h]
  cases mode with
  | totalBits =>
    obtain ⟨rfl, width, framing⟩ := framed
    have room : ¬ 32767 < body.length := by have := fills.le; omega
    have written : encOperator v t .totalBits (Packets.length cs) body =
        .ok (totalHeader v t body.length ++ body) := if_neg room
    refine ⟨_, enc_op_eq_ok.mpr ⟨body, wrote, written⟩, .append (by omega) hs ?_ (fun _ full => ?_) fills⟩
    · rw [Laws.EncodedLength.total_length]; omega
    · rw [prefixed (by omega), framing, ← full, totalHeader]
  | immediateCount =>
    obtain ⟨rfl, width, framing⟩ := framed
    have written : encOperator v t .immediateCount (Packets.length cs) body =
        .ok (countHeader v t (Packets.length cs) ++ body) := if_neg (by omega)
    refine ⟨_, enc_op_eq_ok.mpr ⟨body, wrote, written⟩, .append (by omega) hs ?_ (fun _ _ => ?_) fills⟩
    · rw [Laws.EncodedLength.count_length]; omega
    · rw [prefixed (by omega), framing, countHeader]

/-- What `dec` returns is written back, by induction on its fuel (R168). -/
theorem dec_reencodes {cfg : Config} {buf : Bits} {fuel d pos npkt pos' npkt' : Nat} {p : Packet}
    (h : dec cfg buf fuel d pos npkt = .done p pos' npkt') : Reencodes buf pos pos' (enc .retain p) := by
  induction fuel generalizing d pos npkt p pos' npkt' with
  | zero => cases h
  | succ fuel ih =>
    obtain ⟨v, t, header, ⟨rfl, read⟩ | ⟨-, read⟩⟩ := dec_header h
    · obtain ⟨ds, nonempty, small, rfl, rfl, bits⟩ := decGroups_chunks read
      exact reencodes_lit nonempty small header bits
    · obtain ⟨start, mode, cs, framed, reads, rfl⟩ := decOperator_framing read
      have progress := dec_progress cfg buf fuel (d + 1)
      have children := reads.reencodes progress ih le_rfl (reencodes_nil buf start)
      exact reencodes_op header framed (reads.le progress) children

end Sys2Proof.Machine

open Sys2Proof Sys2Proof.Machine

/-- Settles O44. -/
theorem decodedPacketEncodesToItsBits : Obligations.DecodedPacketEncodesToItsBits := by
  intro cfg buf fuel d pos npkt p pos' npkt' h
  obtain ⟨b, written, fills⟩ := dec_reencodes h
  exact ⟨b, written, fills.le, fills.eq⟩
end

section
/-! PROOF. Where a stream that is cut short ends the decode (R101, R122, R123), and what the cursor's commands answer
(R100, R102, R103). -/

namespace Sys2Proof.Machine

/-! ### Truncation -/

/-- An admitted LITERAL consumes its first 11 bits and goes on from its first chunk (R121, R123). -/
theorem exec_literal_of_admits {s : State} (admits : s.admits = true) (version : Version) (more : Bool) (chunk : Nat) :
    exec (.literal version more chunk) s =
      .next (afterChunk version (literalGroups version s.remaining) more chunk
        { s with pos := s.pos + 11, npkt := s.npkt + 1, acc := 0 }) :=
  congrArg _ (enter_of_admits admits)

/-- A group takes 5 bits, with continue flag 1 too (R72). -/
theorem length_continued (good : List Nat) : (good.flatMap (groupBits true)).length = 5 * good.length := by
  simp [List.length_flatMap, groupBits, Nat.mul_comm]

/-- A chunk and further groups that all have continue flag 1 are accumulated, and reading goes on behind them (R123). -/
theorem afterChunk_of_continued {version : Version} {good : List Nat} (small : ∀ d ∈ good, d < 16) {rest : Bits}
    (fuel : Nat) {chunk : Nat} {s : State} (stands : s.buf.drop s.pos = good.flatMap (groupBits true) ++ rest)
    (narrow : tooWide (valueOf s.acc (chunk :: good)) s.cfg.valueBits = false) :
    afterChunk version (literalGroups version (fuel + good.length)) true chunk s =
      literalGroups version fuel
        { s with pos := s.pos + 5 * good.length, acc := valueOf s.acc (chunk :: good) } := by
  induction good generalizing chunk s with
  | nil => exact afterChunk_of_fits narrow
  | cons d good ih =>
    have fits : tooWide (s.acc * 16 + chunk) s.cfg.valueBits = false := tooWide_mono (le_valueOf _ (d :: good)) narrow
    rw [List.flatMap_cons, List.append_assoc] at stands
    obtain ⟨group, behind⟩ := literalGroups_of_group (s := { s with acc := s.acc * 16 + chunk }) version
      (fuel + good.length) true (small d (by simp)) stands
    have ends : s.pos + 5 * (d :: good).length = s.pos + 5 + 5 * good.length := by
      simp only [List.length_cons]; omega
    rw [afterChunk_of_fits fits, if_pos rfl, List.length_cons, ← Nat.add_assoc, group, ← List.length_cons, ends]
    exact ih (fun x hx => small x (.tail d hx)) (s := { s with pos := s.pos + 5, acc := s.acc * 16 + chunk }) behind
      narrow

/-- Fewer bits than a group takes are left: the flag is missing, or the chunk behind it does not fit (R101, R123). -/
theorem literalGroups_of_short {s : State} (version : Version) {tail : Bits} (stands : s.buf.drop s.pos = tail)
    (short : tail.length < 5) {fuel : Nat} (fuelled : tail.length ≤ fuel) :
    literalGroups version fuel s =
      decodeFailure .insufficientBits .none (s.pos + if tail = [] then 0 else 1) s := by
  have left : s.remaining = tail.length := by rw [← stands, List.length_drop]; rfl
  cases tail with
  | nil =>
    have noFlag : s.popBits 1 = none := popBits_eq_none.mpr (by rw [left]; decide)
    cases fuel with
    | zero => rfl
    | succ fuel => simp only [literalGroups, noFlag]; rfl
  | cons flag chunk =>
    obtain ⟨fuel, rfl⟩ := Nat.exists_eq_succ_of_ne_zero (Nat.ne_zero_of_lt fuelled)
    obtain ⟨flagRead, behind⟩ := popBits_of_drop (x := [flag]) (n := 1) stands rfl
    have noChunk : (s.advance 1).popBits 4 = none := by
      have left : (s.advance 1).remaining = chunk.length := by rw [← behind, List.length_drop]; rfl
      exact popBits_eq_none.mpr (by rw [left]; exact Nat.lt_of_succ_lt_succ short)
    simp only [literalGroups, flagRead, noChunk]
    rfl

/-! ### LOADHEX and POP -/

/-- What goes wrong behind legal characters within the capacity is what the whole scan reports (R100). -/
theorem scanHex_error_behind {maxBits : Nat} {before : List Char} (legal : ∀ x ∈ before, hexval x ≠ none) {i : Nat}
    (room : 4 * (i + before.length) ≤ maxBits) {text : List Char} {r : Raised}
    (behind : scanHex maxBits (i + before.length) text = .error r) :
    scanHex maxBits i (before ++ text) = .error r := by
  induction before generalizing i with
  | nil => exact behind
  | cons c cs ih =>
    rw [List.length_cons] at room behind
    obtain ⟨v, digit⟩ := Option.ne_none_iff_exists'.mp (legal c (by simp))
    have others := ih (fun x hx => legal x (.tail c hx)) (i := i + 1) (by omega)
      (by rwa [Nat.add_assoc, Nat.add_comm 1])
    simp [scanHex, digit, others, show ¬ maxBits < 4 * (i + 1) by omega]

/-- A text whose scan fails is a failed load (R100, R206). -/
theorem loadHex_of_error {text : List Char} {s : State} {e : Err} {sub : ErrSub}
    (failed : scanHex s.cfg.maxBits 0 text = .error (e, sub)) : loadHex text s = loadFailure e sub s := by
  rw [loadHex, failed, ← takeError_load]

/-- The error entry of R206 for POP. -/
theorem takeError_pop (e : Err) (sub : ErrSub) (s : State) :
    s.takeError .pop e sub = { s with err := e, errSub := sub, errPos := s.pos } := rfl

/-- A POP whose operand is in range is the internal `pop` (R101, R102). -/
theorem popCommand_of_legal {n : Nat} {s : State} (least : 1 ≤ n) (most : n ≤ s.cfg.popMax) :
    popCommand n s = (s.popBits n).elim (s.takeError .pop .insufficientBits .none) fun (v, t) =>
      State.succeed { t with ret := v } := by
  rw [popCommand, if_neg (by omega)]
  cases s.popBits n <;> rfl

end Sys2Proof.Machine

open Sys2Proof Sys2Proof.Machine

/-- Settles O7: the packet is entered, and its first missing field is where the fields that fit end. -/
theorem truncatedPacketEndsTheDecode : Obligations.TruncatedPacketEndsTheDecode := by
  intro s offset running admits rejected
  rw [step_of_decode_error running rejected, truncated, enter_of_admits admits]
  rfl

/-- Settles O13: the groups with continue flag 1 are read, then the short tail is. -/
theorem truncatedLiteralReportsItsField : Obligations.TruncatedLiteralReportsItsField := by
  intro s version chunk good tail admits _ small short stands narrow
  have width := length_continued good
  have left := congrArg List.length stands
  rw [List.length_drop, List.length_append, width] at left
  obtain ⟨fuel, fuelled⟩ : ∃ fuel, s.remaining = fuel + good.length :=
    Nat.exists_eq_add_of_le' (by simp only [State.remaining, State.len]; omega)
  have enough : tail.length ≤ fuel := by simp only [State.remaining, State.len] at fuelled; omega
  have behind : s.buf.drop (s.pos + 11 + 5 * good.length) = tail := by
    rw [← List.drop_drop, stands, List.drop_left' width]
  have read := afterChunk_of_continued (version := version) small fuel
    (s := { s with pos := s.pos + 11, npkt := s.npkt + 1, acc := 0 }) stands narrow
  rw [exec_literal_of_admits admits, fuelled, read, literalGroups_of_short version behind short enough]
  rfl

/-- Settles O31: the error behind the legal beginning is the scan's, capacity before digit. -/
theorem loadHexReportsTheFirstError : Obligations.LoadHexReportsTheFirstError := by
  intro s before after c rest idle pending legal room
  have reports {e : Err} {sub : ErrSub}
      (behind : scanHex s.cfg.maxBits (0 + before.length) (c :: after) = .error (e, sub)) :
      step s = .next (loadFailure e sub { s with pending := rest }) := by
    have failed := scanHex_error_behind legal (by rwa [Nat.zero_add]) behind
    rw [step_of_issue idle pending]
    exact congrArg _ (loadHex_of_error (s := { s with pending := rest }) failed)
  rw [Nat.zero_add] at reports
  constructor
  · intro full
    exact reports (if_pos full)
  · intro fits notHex
    exact reports (by simp [scanHex, notHex, not_lt.mpr fits])

/-- Settles O32, by the operand's range and then by what the internal `pop` can do. -/
theorem popReadsOrRefuses : Obligations.PopReadsOrRefuses := by
  intro s n
  refine ⟨fun illegal => ?_, fun least most few => ?_, fun least most enough => ?_⟩
  · rw [command, popCommand, if_pos illegal, takeError_pop]
  · rw [command, popCommand_of_legal least most, popBits_eq_none.mpr few, Option.elim_none, takeError_pop]
  · rw [command, popCommand_of_legal least most, popBits_eq_some.mpr ⟨enough, rfl, rfl⟩]
    rfl

/-- Settles O34: the unconsumed bits are LEN - POS, and success writes the error registers. -/
theorem remainingReportsTheUnconsumedBits : Obligations.RemainingReportsTheUnconsumedBits :=
  fun _ => rfl
end

section
/-! PROOF. What a ceiling refuses (R121), what a completed packet does to the frames (R125, R126, R134 to R136), and
where a Literal becomes too wide (R124). -/

namespace Sys2Proof.Machine

/-! ### Entry -/

/-- Every instruction enters a packet (R121). -/
theorem exec_enters (i : Instr) (s : State) : ∃ body, exec i s = .next (s.enter body) := by
  cases i <;> exact ⟨_, rfl⟩

/-- Too deep a packet is refused, whatever its body is (R121). -/
theorem enter_of_too_deep {s : State} (deep : passes s.depth s.cfg.maxDepth = true) (body : State → State) :
    s.enter body = decodeFailure .limitExceeded .depth s.pos s :=
  enter_of_entry_error (by simp [entry, deep])

/-- One packet too many is refused, whatever its body is (R121). -/
theorem enter_of_too_many {s : State} (shallow : passes s.depth s.cfg.maxDepth = false)
    (many : passes (s.npkt + 1) s.cfg.maxPackets = true) (body : State → State) :
    s.enter body = decodeFailure .limitExceeded .packets s.pos s :=
  enter_of_entry_error (by simp [entry, shallow, many])

/-! ### A completed packet -/

/-- The closing checks after n children and one more: there is one at least, and a comparison wants n to be one (R134,
R135). -/
theorem arityOk_succ {t : PacketType} {n : Nat} : arityOk t (n + 1) = true ↔ (comparison t = true → n = 1) := by
  cases h : comparison t <;> simp [arityOk, h]

theorem status_addChild_of_lacks {f : Frame} {pos : Nat} (h : lacks f pos) (p : Packet) :
    (f.addChild p).status pos = .wantsChild := by
  obtain ⟨version, type, framing, children⟩ := f
  cases framing with
  | total bits start => exact if_pos h
  | count n => exact if_pos ((length_snoc children p).trans_lt h)

theorem status_addChild_of_overshoots {f : Frame} {pos : Nat} (h : overshoots f pos) (p : Packet) :
    (f.addChild p).status pos = .overshot := by
  obtain ⟨version, type, framing, children⟩ := f
  cases framing with
  | total bits start => exact (if_neg h.not_gt).trans (if_pos h)
  | count n => exact h.elim

theorem status_addChild_of_completes {f : Frame} {pos : Nat} (h : completes f pos) (p : Packet) :
    (f.addChild p).status pos = .full := by
  obtain ⟨version, type, framing, children⟩ := f
  cases framing with
  | total bits start => exact (if_neg h.not_lt).trans (if_neg h.not_gt)
  | count n => exact if_neg ((length_snoc children p).trans h).not_lt

theorem deliver_of_no_frame {s : State} (frames : s.frames = []) (p : Packet) :
    s.deliver p = decodeSuccess p s.pos s := by
  rw [State.deliver, frames, ← finishDecode_eq]

section
variable {s : State} {f : Frame} {below : List Frame} (frames : s.frames = f :: below) (p : Packet)
include frames

theorem deliver_of_frame : s.deliver p = resume s (f.addChild p) below := by
  rw [State.deliver, frames]

/-- A packet after which its parent wants another child joins it (R125). -/
theorem deliver_of_lacks (h : lacks f s.pos) : s.deliver p = { s with frames := f.addChild p :: below } := by
  rw [deliver_of_frame frames, resume_of_wantsChild (status_addChild_of_lacks h p)]

/-- A packet that ends beyond its parent's section ends the decode (R126). -/
theorem deliver_of_overshoots (h : overshoots f s.pos) :
    s.deliver p = decodeFailure .framingMismatch .none s.pos s := by
  rw [deliver_of_frame frames, resume_of_overshot (status_addChild_of_overshoots h p)]

/-- A packet that completes its parent with a number of children its type does not admit ends the decode (R135). -/
theorem deliver_of_bad_arity (h : completes f s.pos)
    (bad : arityOk f.type (Packets.length f.children + 1) = false) :
    s.deliver p = decodeFailure .invalidStructure .none s.pos s := by
  rw [← length_snoc _ p] at bad
  rw [deliver_of_frame frames, resume_of_bad_arity (status_addChild_of_completes h p) bad]

/-- A packet that completes its parent makes the parent a completed packet, one frame down (R125). -/
theorem deliver_of_completes (h : completes f s.pos)
    (ok : arityOk f.type (Packets.length f.children + 1) = true) :
    s.deliver p = State.deliver (f.addChild p).packet { s with frames := below } := by
  rw [← length_snoc _ p] at ok
  rw [deliver_of_frame frames, resume_of_full (status_addChild_of_completes h p) ok]

end

/-! ### A childless operator -/

/-- A total of 0 closes the frame at once, without children (R134). -/
theorem openTotal_zero {s : State} (admits : s.admits = true) (t : PacketType) (v : Version) :
    openTotal t v 0 s = .next (decodeFailure .invalidStructure .none (s.pos + 22) s) := by
  have full : Frame.status (s.pos + 22) ⟨v, t, .total 0 (s.pos + 22), .nil⟩ = .full := by simp [Frame.status]
  rw [openTotal, enter_of_admits admits]
  exact congrArg _ (resume_of_bad_arity full rfl)

/-- A count of 0 does too (R134). -/
theorem openCount_zero {s : State} (admits : s.admits = true) (t : PacketType) (v : Version) :
    openCount t v 0 s = .next (decodeFailure .invalidStructure .none (s.pos + 18) s) := by
  have full : Frame.status (s.pos + 18) ⟨v, t, .count 0, .nil⟩ = .full := rfl
  rw [openCount, enter_of_admits admits]
  exact congrArg _ (resume_of_bad_arity full rfl)

/-! ### A Literal's value -/

/-- An admitted LITERAL of one group delivers its chunk (R123). -/
theorem exec_literal_of_one_group {s : State} (admits : s.admits = true) (version : Version) {chunk : Nat}
    (narrow : tooWide chunk s.cfg.valueBits = false) :
    exec (.literal version false chunk) s =
      .next (State.deliver (.lit version chunk) { s with pos := s.pos + 11, npkt := s.npkt + 1, acc := 0 }) := by
  simpa [valueOf] using exec_literal_of_groups admits version (chunk := chunk) (more := []) nofun
    (rest := s.buf.drop (s.pos + 11)) rfl (by simpa [valueOf] using narrow)

/-- The group that makes the value too wide ends the decode just behind it (R124). -/
theorem literalGroups_of_tooWide {s : State} (version : Version) (fuel : Nat) {more : Bool} {last : Nat}
    (small : last < 16) {rest : Bits} (stands : s.buf.drop s.pos = groupBits more last ++ rest)
    (wide : tooWide (s.acc * 16 + last) s.cfg.valueBits = true) :
    literalGroups version (fuel + 1) s = decodeFailure .limitExceeded .value (s.pos + 5) s := by
  rw [(literalGroups_of_group version fuel more small stands).1]
  exact afterChunk_of_tooWide (s := { s with pos := s.pos + 5 }) wide

end Sys2Proof.Machine

open Sys2Proof Sys2Proof.Machine

/-- Settles O5. -/
theorem stepRunsTheDecodedInstruction : Obligations.StepRunsTheDecodedInstruction :=
  fun _ _ _ running decoded => step_of_decode_ok running decoded

/-- Settles O8: every step of a decode, and every instruction, enters a packet first. -/
theorem ceilingsRefuseAPacketAtItsEntry : Obligations.CeilingsRefuseAPacketAtItsEntry := by
  refine ⟨fun s running deep => ?_, fun s running shallow many => ?_, fun i s deep => ?_, fun i s shallow many => ?_⟩
  · obtain ⟨body, e⟩ := step_enters running
    rw [e, enter_of_too_deep deep]
  · obtain ⟨body, e⟩ := step_enters running
    rw [e, enter_of_too_many shallow many]
  · obtain ⟨body, e⟩ := exec_enters i s
    rw [e, enter_of_too_deep deep]
  · obtain ⟨body, e⟩ := exec_enters i s
    rw [e, enter_of_too_many shallow many]

/-- Settles O11: the groups are accumulated, and the delivered Literal joins the frame that wants another child. -/
theorem nestedLiteralJoinsItsFrame : Obligations.NestedLiteralJoinsItsFrame := by
  intro s version chunk more rest f below admits frames small stands narrow wants
  rw [exec_literal_of_groups admits version small stands narrow]
  exact congrArg _ (deliver_of_lacks
    (s := { s with pos := s.pos + 11 + 5 * more.length, npkt := s.npkt + 1, acc := 0 }) frames _ wants)

/-- Settles O12: the check behind the first chunk, or behind the group that follows the narrow ones. -/
theorem tooWideLiteralIsRefusedAtItsGroup : Obligations.TooWideLiteralIsRefusedAtItsGroup := by
  constructor
  · intro s version more chunk admits wide
    have first : tooWide (0 * 16 + chunk) s.cfg.valueBits = true := by rwa [Nat.zero_mul, Nat.zero_add]
    rw [exec_literal_of_admits admits]
    exact congrArg _ (afterChunk_of_tooWide (s := { s with pos := s.pos + 11, npkt := s.npkt + 1, acc := 0 }) first)
  · intro s version chunk good more last rest admits small smallLast stands narrow wide
    have width := length_continued good
    rw [List.append_assoc] at stands
    have left := congrArg List.length stands
    simp only [List.length_drop, List.length_append, width, groupBits, List.length_cons] at left
    have enough : good.length + 1 ≤ s.remaining := by simp only [State.remaining, State.len]; omega
    obtain ⟨fuel, fuelled⟩ : ∃ fuel, s.remaining = fuel + 1 + good.length :=
      ⟨s.remaining - (good.length + 1), by omega⟩
    have behind : s.buf.drop (s.pos + 11 + 5 * good.length) = groupBits more last ++ rest := by
      rw [← List.drop_drop, stands, List.drop_left' width]
    have read := afterChunk_of_continued (version := version) small (fuel + 1)
      (s := { s with pos := s.pos + 11, npkt := s.npkt + 1, acc := 0 }) stands narrow
    have refused := literalGroups_of_tooWide version fuel smallLast behind (s := { s with
      pos := s.pos + 11 + 5 * good.length, npkt := s.npkt + 1, acc := valueOf 0 (chunk :: good) }) wide
    rw [exec_literal_of_admits admits, fuelled, read]
    exact congrArg _ refused

/-- Settles O16: the childless frame is complete and fails the closing checks. -/
theorem childlessOperatorIsInvalid : Obligations.ChildlessOperatorIsInvalid := by
  intro s i version admits
  have total (t : PacketType) (operator : t ≠ .literal) :
      exec (.ofFields version t false 0) s = .next (decodeFailure .invalidStructure .none (s.pos + 22) s) :=
    (exec_ofFields_total operator ..).trans (openTotal_zero admits ..)
  have count (t : PacketType) (operator : t ≠ .literal) :
      exec (.ofFields version t true 0) s = .next (decodeFailure .invalidStructure .none (s.pos + 18) s) :=
    (exec_ofFields_count operator ..).trans (openCount_zero admits ..)
  simp only [List.mem_cons, List.not_mem_nil, or_false]
  constructor
  · rintro (rfl | rfl | rfl | rfl | rfl | rfl | rfl)
    exacts [total .sum nofun, total .product nofun, total .minimum nofun, total .maximum nofun,
      total .greaterThan nofun, total .lessThan nofun, total .equalTo nofun]
  · rintro (rfl | rfl | rfl | rfl | rfl | rfl | rfl)
    exacts [count .sum nofun, count .product nofun, count .minimum nofun, count .maximum nofun,
      count .greaterThan nofun, count .lessThan nofun, count .equalTo nofun]

/-- Settles O17, by what the frame's status is with the packet as one more child. -/
theorem completedPacketClosesItsFrames : Obligations.CompletedPacketClosesItsFrames := by
  intro s p
  refine ⟨fun frames => deliver_of_no_frame frames p, fun f below frames =>
    ⟨deliver_of_lacks frames p, deliver_of_overshoots frames p, fun complete two wrong => ?_, fun complete two => ?_⟩⟩
  · refine deliver_of_bad_arity frames p complete (Bool.eq_false_iff.mpr fun ok => ?_)
    exact wrong (arityOk_succ.mp ok two)
  · exact deliver_of_completes frames p complete (arityOk_succ.mpr two)

/-- Settles O18: the Literal completes the frame, and the operator it builds is the outer packet. -/
theorem lastLiteralBuildsTheOperator : Obligations.LastLiteralBuildsTheOperator := by
  intro s version chunk f admits frames narrow complete two
  rw [exec_literal_of_one_group admits version narrow]
  let read : State := { s with pos := s.pos + 11, npkt := s.npkt + 1, acc := 0 }
  have closes := deliver_of_completes (s := read) frames (.lit version chunk) complete (arityOk_succ.mpr two)
  rw [closes, deliver_of_no_frame rfl]
  rfl

/-- Settles O36, by what one of the bits being 1 says. -/
theorem trailingWarningMeansLongOrNonzero : Obligations.TrailingWarningMeansLongOrNonzero := by
  intro s
  rw [trailingWarn, Bool.or_eq_true, decide_eq_true_eq, State.trailing, any_drop_iff]
  rfl
end

section
/-! PROOF. Every decode ends (R137): an instruction after which it goes on has consumed its own bits. -/

namespace Sys2Proof.Machine

theorem DecodeStep.pos_le {s t : State} (h : DecodeStep s t) : s.pos ≤ t.pos := by
  cases h with | _ => assumption

theorem DecodeStep.len_eq {s t : State} (h : DecodeStep s t) : t.len = s.len := by
  cases h with | _ => rfl

/-- An instruction consumes its own bits, unless the decode ends with it (R72 to R74, R121). -/
theorem exec_consumes {i : Instr} {s t : State} (e : exec i s = .next t) (goesOn : t.running ≠ .idle) :
    s.pos + i.prefixBits ≤ t.pos := by
  obtain ⟨u, eu, does⟩ := exec_cases i s
  rw [e] at eu; cases eu
  rcases does with ⟨sub, -, rfl⟩ | ⟨-, runs⟩
  · exact absurd rfl goesOn
  · cases runs with
    | literal version more chunk =>
      let read : State := { s with pos := s.pos + 11, npkt := s.npkt + 1, acc := 0 }
      exact ((afterFirstChunk_ends version s.remaining more chunk read).decodeStep (s := read) le_rfl).pos_le
    | total _ version type n _ size =>
      let read : State := { s with pos := s.pos + 22, npkt := s.npkt + 1 }
      rw [size]
      exact ((resume_settles read ⟨version, type, .total n (s.pos + 22), .nil⟩ s.frames).decodeStep (s := read)
        le_rfl).pos_le
    | count _ version type n _ size =>
      let read : State := { s with pos := s.pos + 18, npkt := s.npkt + 1 }
      rw [size]
      exact ((resume_settles read ⟨version, type, .count n, .nil⟩ s.frames).decodeStep (s := read) le_rfl).pos_le

/-- No instruction is empty: its header is followed by a flag (R71 to R74). -/
theorem prefixBits_pos (i : Instr) : 0 < i.prefixBits := by
  obtain ⟨v, t, flag, n, rfl⟩ := i.exists_ofFields
  rw [prefixBits_ofFields]
  omega

/-- A step after which the decode goes on leaves fewer bits (R137). -/
theorem step_lessens {s t : State} (running : s.running ≠ .idle) (e : step s = .next t)
    (goesOn : t.running ≠ .idle) : t.remaining < s.remaining := by
  rcases step_cases s with ⟨idle, -⟩ | ⟨-, ⟨i, rest, decoded, es⟩ | ⟨offset, -, es⟩⟩
  · exact absurd idle running
  · rw [es] at e
    have positive := prefixBits_pos i
    have inside := decode_length decoded
    have consumes := exec_consumes e goesOn
    have length := (exec_decodeStep e).len_eq
    simp only [State.trailing, List.length_drop, State.remaining, State.len] at inside length ⊢
    omega
  · rw [es] at e; cases e
    rcases truncated_cases offset s with ⟨sub, -, e⟩ | ⟨-, e⟩ <;> rw [e] at goesOn <;> exact absurd rfl goesOn

end Sys2Proof.Machine

open Sys2Proof Sys2Proof.Machine

/-- Settles O20, by induction on the bits that are left. -/
theorem decodeEndsWithinItsBits : Obligations.DecodeEndsWithinItsBits := by
  intro s running
  induction left : s.remaining using Nat.strong_induction_on generalizing s with
  | _ n ih =>
    subst left
    obtain ⟨body, e⟩ := step_enters running
    generalize s.enter body = t at e
    by_cases ends : t.running = .idle
    · exact ⟨1, t, Nat.le_add_left .., ends, run_of_step (M := Sys2Proof.core) e 0⟩
    · have less := step_lessens running e ends
      obtain ⟨k, u, few, idle, run⟩ := ih _ less t ends rfl
      exact ⟨k + 1, u, by omega, idle, (run_of_step (M := Sys2Proof.core) e k).trans run⟩
end

section
/-! PROOF. A call of the recursive decoder that returns does so on every buffer that holds the same bits up to where it
returns (R137). -/

namespace Sys2Proof.Machine

/-- The first n bits of two buffers are the same. -/
def AgreeUpTo (n : Nat) (buf other : Bits) : Prop :=
  other.take n = buf.take n

theorem AgreeUpTo.mono {m n : Nat} {buf other : Bits} (h : AgreeUpTo n buf other) (le : m ≤ n) :
    AgreeUpTo m buf other := by
  have shorter := congrArg (List.take m) h
  rwa [List.take_take, List.take_take, min_eq_left le] at shorter

theorem AgreeUpTo.bitsBetween_eq {n : Nat} {buf other : Bits} (h : AgreeUpTo n buf other) (pos : Nat) :
    bitsBetween other pos n = bitsBetween buf pos n := by
  rw [bitsBetween, bitsBetween, ← List.drop_take, ← List.drop_take, h]

theorem AgreeUpTo.le_length {n : Nat} {buf other : Bits} (h : AgreeUpTo n buf other) (inside : n ≤ buf.length) :
    n ≤ other.length := by
  have length := congrArg List.length h
  rw [List.length_take, List.length_take] at length
  omega

/-- What stands at a position of one buffer, up to where they agree, stands there in the other. -/
theorem AgreeUpTo.drop_eq {pos n : Nat} {buf other : Bits} (h : AgreeUpTo n buf other) (le : pos ≤ n) :
    other.drop pos = bitsBetween buf pos n ++ other.drop n := by
  rw [← h.bitsBetween_eq, bitsBetween]
  conv_lhs => rw [← List.take_append_drop (n - pos) (other.drop pos), List.drop_drop, Nat.add_sub_cancel' le]

/-- A popped field that ends where the buffers still agree is popped from the other too (R101). -/
theorem AgreeUpTo.popAt_eq {pos n v : Nat} {buf other : Bits} (h : AgreeUpTo (pos + n) buf other)
    (popped : popAt buf pos n = some v) : popAt other pos n = some v := by
  obtain ⟨inside, rfl⟩ := popAt_eq_some.mp popped
  have same : bitsBetween other pos (pos + n) = bitsBetween buf pos (pos + n) := h.bitsBetween_eq pos
  have length := congrArg List.length h
  rw [List.length_take, List.length_take] at length
  rw [bitsBetween, bitsBetween, Nat.add_sub_cancel_left] at same
  exact popAt_eq_some.mpr ⟨by omega, by rw [memRead, memRead, same]⟩

/-- A Literal's groups are read from the other buffer too, given fuel for them (R123). -/
theorem decGroups_of_agree {cfg : Config} {buf other : Bits} {v : Version} {fuel fuel' start pos npkt pos' npkt' : Nat}
    {p : Packet} (h : decGroups cfg buf v fuel start pos npkt = .done p pos' npkt') (agree : AgreeUpTo pos' buf other)
    (fuelled : pos' ≤ pos + fuel') : decGroups cfg other v fuel' start pos npkt = .done p pos' npkt' := by
  obtain ⟨-, -, rfl, value, literal, narrow⟩ := decGroups_done h
  obtain ⟨ds, nonempty, small, rfl, rfl, bits⟩ := decGroups_chunks h
  cases literal
  have stands := agree.drop_eq (Nat.le_add_right pos _)
  rw [bits] at stands
  exact decGroups_of_groups nonempty small stands (by omega) narrow

/-- What one child reader returns before n, the other returns too. -/
def FollowsUpTo (n : Nat) (child other : Nat → Nat → Parse Packet) : Prop :=
  ∀ ⦃pos npkt p pos' npkt'⦄, child pos npkt = .done p pos' npkt' → pos' ≤ n → other pos npkt = .done p pos' npkt'

section
variable {child other : Nat → Nat → Parse Packet} (progress : Progress child) {cs cs' : Packets}
  {pos npkt pos' npkt' : Nat} (follows : FollowsUpTo pos' child other)
include progress follows

/-- The mode-0 loop (R125, R126). -/
theorem decTotal_of_follows {total start fuel : Nat}
    (h : decTotal child total start fuel cs pos npkt = .done cs' pos' npkt') :
    decTotal other total start fuel cs pos npkt = .done cs' pos' npkt' := by
  induction fuel generalizing cs pos npkt with
  | zero => exact h
  | succ fuel ih =>
    unfold decTotal at h ⊢
    by_cases lacks : pos - start < total
    · rw [if_pos lacks] at h ⊢
      dsimp only at h ⊢
      split at h
      · rename_i call
        rw [follows call ((reads_of_decTotal h).le progress)]
        exact ih h
      · cases h
      · cases h
    · rw [if_neg lacks] at h ⊢
      exact h

/-- The mode-1 loop (R125). -/
theorem decCount_of_follows {n : Nat} (h : decCount child n cs pos npkt = .done cs' pos' npkt') :
    decCount other n cs pos npkt = .done cs' pos' npkt' := by
  induction n generalizing cs pos npkt with
  | zero => exact h
  | succ n ih =>
    unfold decCount at h ⊢
    split at h
    · rename_i call
      rw [follows call ((reads_of_decCount h).le progress)]
      exact ih h
    · cases h
    · cases h

end

/-- An operator is read from the other buffer too, if its children are (R125). -/
theorem decOperator_of_agree {buf other : Bits} {child child' : Nat → Nat → Parse Packet} (progress : Progress child)
    {fuel pos npkt pos' npkt' : Nat} {v : Version} {t : PacketType} {p : Packet}
    (h : decOperator buf child fuel v t pos npkt = .done p pos' npkt') (agree : AgreeUpTo pos' buf other)
    (follows : FollowsUpTo pos' child child') : decOperator other child' fuel v t pos npkt = .done p pos' npkt' := by
  have close {mode : LengthMode} {children children' : Parse Packets}
      (closed : decClose v t mode children = .done p pos' npkt')
      (same : ∀ cs, children = .done cs pos' npkt' → children' = .done cs pos' npkt') :
      decClose v t mode children' = .done p pos' npkt' := by
    obtain ⟨cs, loop, -⟩ := decClose_done closed
    rw [same cs loop, ← loop, closed]
  obtain ⟨start, mode, cs, behind, -, children, -⟩ := decOperator_done h
  have moved : pos + 12 ≤ pos' := behind.trans (children.le progress)
  unfold decOperator at h ⊢
  split at h
  · cases h
  · rename_i mode flag
    rw [(agree.mono (by omega)).popAt_eq flag]
    dsimp only
    split at h <;> rename_i zero <;> split at h
    · cases h
    · rename_i total length
      obtain ⟨cs, loop, -⟩ := decClose_done h
      have section_le := (reads_of_decTotal loop).le progress
      rw [if_pos zero, (agree.mono (by omega)).popAt_eq length]
      exact close h fun cs loop => decTotal_of_follows progress follows loop
    · cases h
    · rename_i n length
      rw [if_neg zero, (agree.mono (by omega)).popAt_eq length]
      exact close h fun cs loop => decCount_of_follows progress follows loop

/-- What `dec` returns on one buffer it returns on the other, by induction on its fuel (R122, R137). -/
theorem dec_of_agree {cfg : Config} {buf other : Bits} {fuel d pos npkt pos' npkt' : Nat} {p : Packet}
    (h : dec cfg buf fuel d pos npkt = .done p pos' npkt') (agree : AgreeUpTo pos' buf other) :
    dec cfg other fuel d pos npkt = .done p pos' npkt' := by
  induction fuel generalizing d pos npkt p pos' npkt' with
  | zero => cases h
  | succ fuel ih =>
    obtain ⟨consumes, inside, -⟩ := dec_bounded h
    obtain ⟨entered, -⟩ := dec_done h
    obtain ⟨v, t, header, read⟩ := dec_header h
    have stands := (agree.mono (m := pos + 6) (by omega)).drop_eq (Nat.le_add_right pos 6)
    rw [header] at stands
    rw [(dec_of_header stands entered fuel).2]
    rcases read with ⟨literal, groups⟩ | ⟨operator, children⟩
    · have room := agree.le_length inside
      rw [if_pos literal]
      exact decGroups_of_agree groups agree (by omega)
    · rw [if_neg operator]
      exact decOperator_of_agree (dec_progress ..) children agree fun _ _ _ _ _ call le => ih call (agree.mono le)

end Sys2Proof.Machine

open Sys2Proof Sys2Proof.Machine

/-- Settles O22. -/
theorem decodeReadsNothingBeyondItsPacket : Obligations.DecodeReadsNothingBeyondItsPacket :=
  fun _ _ _ _ _ _ _ _ _ _ h agree => dec_of_agree h agree
end

section
/-! PROOF. A step of a decode reads the cursor, the configuration and the transient state only (R140): two states that
differ in nothing else take the same step. -/

namespace Sys2Proof.Machine

/-! ### The relation -/

/-- s with the result registers, and the host's moves, of r. -/
def State.withResultsOf (s r : State) : State :=
  { s with
    ret := r.ret, tree := r.tree, out := r.out, err := r.err, errSub := r.errSub, errPos := r.errPos,
    warn := r.warn, pending := r.pending }

/-- From s and from u the same step of a decode was taken: both decodes wait with the same transient state, or end with
the same packet or the same error. -/
inductive StepsAlike (s u : State) : State → State → Prop where
  | waits (pos npkt acc : Nat) (frames : List Frame) :
    StepsAlike s u { s with pos := pos, npkt := npkt, acc := acc, frames := frames }
      { u with pos := pos, npkt := npkt, acc := acc, frames := frames }
  | succeeds (p : Packet) (pos : Nat) : StepsAlike s u (decodeSuccess p pos s) (decodeSuccess p pos u)
  | fails (e : Err) (sub : ErrSub) (pos : Nat) :
    StepsAlike s u (decodeFailure e sub pos s) (decodeFailure e sub pos u)

/-- A step taken alike from further on is one taken alike from here. -/
theorem StepsAlike.of_later {s u t t' : State} {pos npkt acc : Nat} {frames : List Frame}
    (h : StepsAlike { s with pos := pos, npkt := npkt, acc := acc, frames := frames }
      { u with pos := pos, npkt := npkt, acc := acc, frames := frames } t t') : StepsAlike s u t t' := by
  cases h with
  | waits pos npkt acc frames => exact .waits pos npkt acc frames
  | succeeds p pos => exact .succeeds p pos
  | fails e sub pos => exact .fails e sub pos

/-! ### Completing a packet -/

variable (r : State)

theorem resume_alike_of_deliver {s : State} {f : Frame} {below : List Frame}
    (closes : StepsAlike s (s.withResultsOf r) (State.deliver f.packet { s with frames := below })
      (State.deliver f.packet { s.withResultsOf r with frames := below })) :
    StepsAlike s (s.withResultsOf r) (resume s f below) (resume (s.withResultsOf r) f below) := by
  cases status : f.status s.pos with
  | wantsChild =>
    rw [resume_of_wantsChild status, resume_of_wantsChild (s := s.withResultsOf r) status]
    exact .waits s.pos s.npkt s.acc _
  | overshot =>
    rw [resume_of_overshot status, resume_of_overshot (s := s.withResultsOf r) status]
    exact .fails ..
  | full =>
    cases arity : arityOk f.type (Packets.length f.children) with
    | false =>
      rw [resume_of_bad_arity status arity, resume_of_bad_arity (s := s.withResultsOf r) status arity]
      exact .fails ..
    | true =>
      rw [resume_of_full status arity, resume_of_full (s := s.withResultsOf r) status arity]
      exact closes

/-- A completed packet is taken alike, by induction on the open frames (R125). -/
theorem deliver_alike (p : Packet) (s : State) :
    StepsAlike s (s.withResultsOf r) (s.deliver p) ((s.withResultsOf r).deliver p) := by
  induction frames : s.frames generalizing s p with
  | nil =>
    rw [deliver_of_no_frame frames, deliver_of_no_frame (s := s.withResultsOf r) frames]
    exact .succeeds ..
  | cons f below ih =>
    rw [deliver_of_frame frames, deliver_of_frame (s := s.withResultsOf r) frames]
    exact resume_alike_of_deliver r (ih _ { s with frames := below } rfl).of_later

theorem resume_alike (s : State) (f : Frame) (below : List Frame) :
    StepsAlike s (s.withResultsOf r) (resume s f below) (resume (s.withResultsOf r) f below) :=
  resume_alike_of_deliver r (deliver_alike r f.packet { s with frames := below }).of_later

/-! ### Reading a packet -/

/-- One call of the recursive decoder leads both states alike. -/
theorem after_alike {s t t' : State} {call : Parse Packet} (e : s.after call = some t)
    (e' : (s.withResultsOf r).after call = some t') : StepsAlike s (s.withResultsOf r) t t' := by
  cases call with
  | done p pos npkt =>
    cases e; cases e'
    exact (deliver_alike r p { s with pos := pos, npkt := npkt, acc := 0 }).of_later
  | raised e sub pos =>
    cases e; cases e'
    exact .fails ..
  | exhausted => cases e

/-- A Literal is read alike, for its groups are those the recursive decoder reads in BUF (R123). -/
theorem afterFirstChunk_alike (version : Version) (more : Bool) (chunk : Nat) {fuel : Nat} {s : State}
    (fuelled : s.len - s.pos ≤ fuel) :
    StepsAlike s (s.withResultsOf r) (afterChunk version (literalGroups version fuel) more chunk s)
      (afterChunk version (literalGroups version fuel) more chunk (s.withResultsOf r)) := by
  obtain ⟨flag, small, rfl⟩ : ∃ flag < 2, (flag == 1) = more := by
    cases more
    · exact ⟨0, by decide, rfl⟩
    · exact ⟨1, by decide, rfl⟩
  have further (u : State) (fuelled : u.len - u.pos ≤ fuel) (acc : Nat) :
      u.after (decGroups u.cfg u.buf version (u.len - u.pos + 1) acc u.pos u.npkt) =
        some (literalGroups version fuel { u with acc := acc }) :=
    after_decGroups version (Nat.lt_succ_self _) fuelled
  exact after_alike r (after_of_chunk small chunk (further s fuelled))
    (after_of_chunk small chunk (further (s.withResultsOf r) fuelled))

/-- A packet is refused, or entered, alike (R121). -/
theorem enter_alike {body : State → State}
    (alike : ∀ s, StepsAlike s (s.withResultsOf r) (body s) (body (s.withResultsOf r))) (s : State) :
    StepsAlike s (s.withResultsOf r) (s.enter body) ((s.withResultsOf r).enter body) := by
  cases entered : entry s.cfg s.depth s.npkt with
  | error raised =>
    rw [enter_of_entry_error entered, enter_of_entry_error (s := s.withResultsOf r) entered]
    exact .fails ..
  | ok n =>
    rw [enter_of_entry_ok entered, enter_of_entry_ok (s := s.withResultsOf r) entered]
    exact (alike { s with npkt := n }).of_later

/-- A packet cut short ends both decodes alike (R101, R122). -/
theorem truncated_alike (offset : Nat) (s : State) :
    StepsAlike s (s.withResultsOf r) (truncated offset s) (truncated offset (s.withResultsOf r)) :=
  enter_alike r (fun s => .fails .insufficientBits .none (s.pos + offset)) s

theorem exec_alike (i : Instr) (s : State) :
    ∃ t u, exec i s = .next t ∧ exec i (s.withResultsOf r) = .next u ∧ StepsAlike s (s.withResultsOf r) t u := by
  obtain ⟨version, type, flag, n, rfl⟩ := i.exists_ofFields
  by_cases literal : type = .literal
  · subst literal
    refine ⟨_, _, rfl, rfl, enter_alike r (fun s => ?_) s⟩
    exact (afterFirstChunk_alike r version flag n (fuel := s.remaining) (s := { s.advance 11 with acc := 0 })
      (by simp only [State.remaining, State.len, State.advance]; omega)).of_later
  · cases flag with
    | false =>
      rw [exec_ofFields_total literal, exec_ofFields_total literal]
      exact ⟨_, _, rfl, rfl, enter_alike r (fun s => (resume_alike r (s.advance 22) _ _).of_later) s⟩
    | true =>
      rw [exec_ofFields_count literal, exec_ofFields_count literal]
      exact ⟨_, _, rfl, rfl, enter_alike r (fun s => (resume_alike r (s.advance 18) _ _).of_later) s⟩

theorem step_alike {s : State} (running : s.running ≠ .idle) :
    ∃ t u, step s = .next t ∧ step (s.withResultsOf r) = .next u ∧ StepsAlike s (s.withResultsOf r) t u := by
  cases decoded : decode s.trailing with
  | ok read =>
    rw [step_of_decode_ok running decoded, step_of_decode_ok (s := s.withResultsOf r) running decoded]
    exact exec_alike r read.1 s
  | error reason =>
    obtain ⟨offset⟩ := reason
    exact ⟨_, _, step_of_decode_error running decoded, step_of_decode_error (s := s.withResultsOf r) running decoded,
      truncated_alike r offset s⟩

end Sys2Proof.Machine

open Sys2Proof Sys2Proof.Machine

/-- Settles O24, by the three ways in which the two steps can go alike. -/
theorem decodeIgnoresTheResultRegisters : Obligations.DecodeIgnoresTheResultRegisters := by
  intro s ret tree out err errSub errPos warn pending running
  obtain ⟨t, u, stepped, stepped', alike⟩ := step_alike (r := { s with
    ret := ret, tree := tree, out := out, err := err, errSub := errSub, errPos := errPos, warn := warn,
    pending := pending }) running
  refine ⟨t, u, stepped, stepped', ?_⟩
  cases alike with
  | waits pos npkt acc frames => exact ⟨rfl, rfl, rfl, rfl, rfl, rfl, rfl, fun idle => absurd idle running⟩
  | succeeds p pos =>
    refine ⟨rfl, rfl, rfl, rfl, rfl, rfl, rfl, fun _ => ⟨rfl, rfl, rfl, rfl, fun outer => ?_⟩⟩
    exact (if_pos outer).trans (if_pos outer).symm
  | fails e sub pos =>
    refine ⟨rfl, rfl, rfl, rfl, rfl, rfl, rfl, fun _ => ⟨rfl, rfl, rfl, rfl, fun outer => ?_⟩⟩
    exact (if_pos outer).trans (if_pos outer).symm
end

section
/-! PROOF. ENCODE (R160): how far its output is padded (R166), and its three checks in the order of R167. -/

namespace Sys2Proof.Machine

/-! ### Padding -/

theorem padLength_lt (n : Nat) : padLength n < 8 :=
  Nat.mod_lt _ (by decide)

theorem padded_length (b : Bits) : (padded b).length = b.length + padLength b.length := by
  rw [padded, List.length_append, List.length_replicate]

/-- Fewer than 8 bits are appended, so no multiple of 8 lies between the two lengths. -/
theorem padded_length_le {b : Bits} {m : Nat} (holds : b.length ≤ m) (whole : m % 8 = 0) :
    (padded b).length ≤ m := by
  have few := padLength_lt b.length
  have bytes := padded_length_mod b
  rw [padded_length] at bytes ⊢
  omega

/-! ### The checks -/

variable {cfg : Config} {p : Packet}

theorem encoded_of_invalid {r : Raised} (invalid : validate cfg p 1 0 = .error r) : encoded cfg p = .error r := by
  rw [encoded, invalid]

theorem encoded_of_overflow {n : Nat} {r : Raised} (valid : validate cfg p 1 0 = .ok n)
    (overflow : enc cfg.encPolicy p = .error r) : encoded cfg p = .error r := by
  simp only [encoded, valid, overflow]

theorem encoded_of_enc {n : Nat} {b : Bits} (valid : validate cfg p 1 0 = .ok n)
    (written : enc cfg.encPolicy p = .ok b) :
    encoded cfg p =
      if cfg.maxBits < (padded b).length then .error (.limitExceeded, .buffer) else .ok (padded b) := by
  simp only [encoded, valid, written]

/-! ### The command -/

/-- A refused packet is a failed ENCODE (R206). -/
theorem encodeCommand_of_error {s : State} {e : Err} {sub : ErrSub} (refused : encoded s.cfg p = .error (e, sub)) :
    encodeCommand p s = encodeFailure e sub s := by
  rw [encodeCommand, refused, ← takeError_encode]

theorem encodeCommand_of_ok {s : State} {out : Bits} (accepted : encoded s.cfg p = .ok out) :
    encodeCommand p s = State.succeed { s with out := out } := by
  rw [encodeCommand, accepted]

end Sys2Proof.Machine

open Sys2Proof Sys2Proof.Machine

/-- Settles O37: an admitted packet passes the three checks, and its padded encoding is the output. -/
theorem encodeFillsTheOutput : Obligations.EncodeFillsTheOutput := by
  intro s p rest n b idle pending valid written room
  have fits : ¬ s.cfg.maxBits < (padded b).length := by rw [padded_length]; exact not_lt.mpr room
  have accepted : encoded s.cfg p = .ok (padded b) := (encoded_of_enc valid written).trans (if_neg fits)
  rw [step_of_issue idle pending]
  exact congrArg _ (encodeCommand_of_ok (s := { s with pending := rest }) accepted)

/-- Settles O38: each check is reached when those before it have passed, and what it refuses is a failed ENCODE. -/
theorem encodeReportsErrorsInOrder : Obligations.EncodeReportsErrorsInOrder := by
  intro s p rest idle pending
  have reports {e : Err} {sub : ErrSub} (refused : encoded s.cfg p = .error (e, sub)) :
      step s = .next (encodeFailure e sub { s with pending := rest }) := by
    rw [step_of_issue idle pending]
    exact congrArg _ (encodeCommand_of_error (s := { s with pending := rest }) refused)
  refine ⟨fun e sub invalid => ?_, fun n e sub valid overflow => ?_, fun n b valid written full => ?_⟩
  · exact reports (encoded_of_invalid invalid)
  · exact reports (encoded_of_overflow valid overflow)
  · have beyond : s.cfg.maxBits < (padded b).length := by rw [padded_length]; exact full
    exact reports ((encoded_of_enc valid written).trans (if_pos beyond))

/-- Settles O42: the appended bits are those `padLength` counts. -/
theorem paddingReachesTheNextByte : Obligations.PaddingReachesTheNextByte :=
  fun b => ⟨padLength b.length, rfl, padLength_lt _, padded_length_mod b, fun _ holds whole =>
    padded_length_le holds whole⟩
end

section
/-! PROOF. The companion evaluator: the value of an operator is its type's combination of the children's values
(R180), and what each combination is (R182, R183). -/

namespace Sys2Proof.Machine

/-- Children that have values have one each. -/
theorem length_of_evaluateAll : ∀ {cs : Packets} {xs : List Nat}, evaluateAll cs = .ok xs →
    Packets.length cs = xs.length
  | .nil, xs, h => by
    cases h
    rfl
  | .cons c cs, xs, h => by
    unfold evaluateAll at h
    split at h
    · split at h
      · cases h
      · rename_i rest
        cases h
        rw [Packets.length, length_of_evaluateAll rest, List.length_cons]
    · cases h
    · cases h

theorem evaluateAll_pair {a b : Packet} {x y : Nat} (first : evaluate a = .value x) (second : evaluate b = .value y) :
    evaluateAll (.cons a (.cons b .nil)) = .ok [x, y] := by
  simp only [evaluateAll, first, second]

section Operator

variable {t : PacketType} {cs : Packets} {xs : List Nat}

/-- Where the arity check passes and the children have values, the operator's value is their combination. -/
theorem evaluate_op_of_values (v : Version) (m : LengthMode) (ht : t ≠ .literal)
    (admitted : arityOk t xs.length = true) (values : evaluateAll cs = .ok xs) :
    evaluate (.op v t m cs) = combine t xs := by
  rw [← length_of_evaluateAll values] at admitted
  simp [evaluate, ht, admitted, values]

/-- Two children pass every operator's arity check. -/
theorem evaluate_op_pair (v : Version) (m : LengthMode) (ht : t ≠ .literal) {a b : Packet} {x y : Nat}
    (first : evaluate a = .value x) (second : evaluate b = .value y) :
    evaluate (.op v t m (.cons a (.cons b .nil))) = combine t [x, y] :=
  evaluate_op_of_values v m ht (by simp [arityOk]) (evaluateAll_pair first second)

/-- Any children at all pass the arity check of the four folds (R22). -/
theorem evaluate_op_of_fold (v : Version) (m : LengthMode)
    (fold : t ∈ [PacketType.sum, .product, .minimum, .maximum])
    (values : evaluateAll cs = .ok xs) (nonempty : xs ≠ []) : evaluate (.op v t m cs) = combine t xs := by
  have kind : ∀ u ∈ [PacketType.sum, .product, .minimum, .maximum], u ≠ .literal ∧ comparison u = false := by decide
  obtain ⟨operator, unpaired⟩ := kind t fold
  exact evaluate_op_of_values v m operator (by simp [arityOk, unpaired, nonempty]) values

end Operator

/-! ### The four folds (R182) -/

theorem combine_sum : ∀ {xs : List Nat}, xs ≠ [] → combine .sum xs = .value xs.sum
  | x :: xs, _ => by rw [List.sum_eq_foldl_nat, List.foldl_cons, Nat.zero_add]; rfl

theorem combine_product : ∀ {xs : List Nat}, xs ≠ [] → combine .product xs = .value xs.prod
  | x :: xs, _ => by rw [List.prod_eq_foldl, List.foldl_cons, Nat.one_mul]; rfl

theorem combine_minimum : ∀ {xs : List Nat} (nonempty : xs ≠ []), combine .minimum xs = .value (xs.min nonempty)
  | _ :: _, _ => rfl

theorem combine_maximum : ∀ {xs : List Nat} (nonempty : xs ≠ []), combine .maximum xs = .value (xs.max nonempty)
  | _ :: _, _ => rfl

theorem combine_fold_singleton {t : PacketType} (fold : t ∈ [PacketType.sum, .product, .minimum, .maximum])
    (x : Nat) : combine t [x] = .value x := by
  simp only [List.mem_cons, List.not_mem_nil, or_false] at fold
  rcases fold with rfl | rfl | rfl | rfl <;> rfl

end Sys2Proof.Machine

open Sys2Proof Sys2Proof.Machine

/-- Settles O47: the two children's values, in wire order, are combined by the type's comparison. -/
theorem evaluateComparesInWireOrder : Obligations.EvaluateComparesInWireOrder := by
  intro v m a b x y first second
  have compares {t : PacketType} (operator : t ≠ .literal) :
      evaluate (.op v t m (.cons a (.cons b .nil))) = combine t [x, y] :=
    evaluate_op_pair v m operator first second
  exact ⟨compares (t := .greaterThan) nofun, compares (t := .lessThan) nofun, compares (t := .equalTo) nofun⟩

/-- Settles O48: the operator combines the children's values, and each combination is the named fold of them. -/
theorem evaluateFoldsTheChildren : Obligations.EvaluateFoldsTheChildren := by
  intro v m cs xs values nonempty
  have folds {t : PacketType} (fold : t ∈ [PacketType.sum, .product, .minimum, .maximum]) :
      evaluate (.op v t m cs) = combine t xs := evaluate_op_of_fold v m fold values nonempty
  refine ⟨?sum, ?product, ?minimum, ?maximum, ?single⟩
  case sum => exact (folds (by decide)).trans (combine_sum nonempty)
  case product => exact (folds (by decide)).trans (combine_product nonempty)
  case minimum =>
    exact ⟨xs.min nonempty, (folds (by decide)).trans (combine_minimum nonempty),
      List.min_mem nonempty, fun _ => List.min_le_of_mem⟩
  case maximum =>
    exact ⟨xs.max nonempty, (folds (by decide)).trans (combine_maximum nonempty),
      List.max_mem nonempty, fun _ => List.le_max_of_mem⟩
  case single =>
    rintro t fold x rfl
    exact (folds fold).trans (combine_fold_singleton fold x)
end

section
/-! PROOF. Which errors each command raises (R200 to R202), and that every step and every instruction answers a next
state (R206, R208, R217). -/

namespace Sys2Proof.Machine

/-! ### What the load phase and the ceilings raise -/

theorem scanHex_raises {maxBits i : Nat} {text : List Char} {r : Raised} (h : scanHex maxBits i text = .error r) :
    r ∈ mayRaise (.loadHex text) := by
  induction text generalizing i with
  | nil => cases h
  | cons c cs ih =>
    unfold scanHex at h
    split at h
    · cases h; simp [mayRaise]
    · split at h
      · cases h; simp [mayRaise]
      · split at h
        · rename_i e; cases h; exact ih e
        · cases h

/-- Both ceilings are in DECODE's column and in ENCODE's (R121, R161). -/
theorem entry_raises {cfg : Config} {d npkt : Nat} {r : Raised} (h : entry cfg d npkt = .error r) :
    r ∈ mayRaise .decode ∧ ∀ p, r ∈ mayRaise (.encode p) := by
  rcases entry_cases cfg d npkt with ⟨-, e⟩ | ⟨-, -, e⟩ | ⟨-, -, e⟩ <;> rw [e] at h <;> cases h <;> simp [mayRaise]

/-! ### What the recursive decoder raises -/

/-- The call raises nothing, or an error of DECODE's column of R202. -/
def Parse.RaisesDecodeErrors {α : Type} : Parse α → Prop
  | .done _ _ _ => True
  | .raised e sub _ => (e, sub) ∈ mayRaise .decode
  | .exhausted => True

theorem raisesDecodeErrors_of_mem {α : Type} {e : Err} {sub : ErrSub} {pos : Nat} (h : (e, sub) ∈ mayRaise .decode) :
    (Parse.raised e sub pos : Parse α).RaisesDecodeErrors := h

theorem decGroups_raises (cfg : Config) (buf : Bits) (v : Version) (fuel value pos npkt : Nat) :
    (decGroups cfg buf v fuel value pos npkt).RaisesDecodeErrors := by
  induction fuel generalizing value pos with
  | zero => trivial
  | succ fuel ih =>
    unfold decGroups
    split
    · exact raisesDecodeErrors_of_mem (by decide)
    · split
      · exact raisesDecodeErrors_of_mem (by decide)
      · split
        · exact raisesDecodeErrors_of_mem (by decide)
        · split
          · trivial
          · exact ih ..

theorem decClose_raises (v : Version) (t : PacketType) (mode : LengthMode) {children : Parse Packets}
    (h : children.RaisesDecodeErrors) : (decClose v t mode children).RaisesDecodeErrors := by
  cases children with
  | done cs pos npkt =>
    rw [decClose]
    split
    · trivial
    · exact raisesDecodeErrors_of_mem (by decide)
  | raised e sub pos => exact h
  | exhausted => trivial

section Children

variable {child : Nat → Nat → Parse Packet} (raises : ∀ pos npkt, (child pos npkt).RaisesDecodeErrors)
include raises

theorem decTotal_raises (total start fuel : Nat) (cs : Packets) (pos npkt : Nat) :
    (decTotal child total start fuel cs pos npkt).RaisesDecodeErrors := by
  induction fuel generalizing cs pos npkt with
  | zero =>
    unfold decTotal
    split
    · trivial
    · split
      · exact raisesDecodeErrors_of_mem (by decide)
      · trivial
  | succ fuel ih =>
    have one := raises pos npkt
    unfold decTotal
    split
    · cases call : child pos npkt with
      | done p pos npkt => exact ih ..
      | raised e sub pos => rwa [call] at one
      | exhausted => trivial
    · split
      · exact raisesDecodeErrors_of_mem (by decide)
      · trivial

theorem decCount_raises (n : Nat) (cs : Packets) (pos npkt : Nat) :
    (decCount child n cs pos npkt).RaisesDecodeErrors := by
  induction n generalizing cs pos npkt with
  | zero => trivial
  | succ n ih =>
    have one := raises pos npkt
    unfold decCount
    cases call : child pos npkt with
    | done p pos npkt => exact ih ..
    | raised e sub pos => rwa [call] at one
    | exhausted => trivial

theorem decOperator_raises (buf : Bits) (fuel : Nat) (v : Version) (t : PacketType) (pos npkt : Nat) :
    (decOperator buf child fuel v t pos npkt).RaisesDecodeErrors := by
  unfold decOperator
  split
  · exact raisesDecodeErrors_of_mem (by decide)
  · split <;> split
    · exact raisesDecodeErrors_of_mem (by decide)
    · exact decClose_raises _ _ _ (decTotal_raises raises ..)
    · exact raisesDecodeErrors_of_mem (by decide)
    · exact decClose_raises _ _ _ (decCount_raises raises ..)

end Children

/-- Every call of the decoder raises only errors of DECODE's column, by induction on its fuel. -/
theorem dec_raises (cfg : Config) (buf : Bits) (fuel d pos npkt : Nat) :
    (dec cfg buf fuel d pos npkt).RaisesDecodeErrors := by
  induction fuel generalizing d pos npkt with
  | zero => trivial
  | succ fuel ih =>
    unfold dec
    split
    · rename_i refused
      exact raisesDecodeErrors_of_mem (entry_raises refused).1
    · split
      · exact raisesDecodeErrors_of_mem (by decide)
      · split
        · exact raisesDecodeErrors_of_mem (by decide)
        · split
          · exact decGroups_raises ..
          · exact decOperator_raises (fun _ _ => ih ..) ..

/-! ### What ENCODE raises -/

mutual

theorem validate_raises {cfg : Config} {q : Packet} {r : Raised} :
    ∀ {p : Packet} {d npkt : Nat}, validate cfg p d npkt = .error r → r ∈ mayRaise (.encode q)
  | .lit _ _, d, npkt, h => by
    unfold validate at h
    split at h
    · rename_i e; cases h; exact (entry_raises e).2 q
    · split at h <;> cases h; simp [mayRaise]
  | .op _ _ _ cs, d, npkt, h => by
    unfold validate at h
    split at h
    · rename_i e; cases h; exact (entry_raises e).2 q
    · split at h
      · cases h; simp [mayRaise]
      · exact validateAll_raises h

theorem validateAll_raises {cfg : Config} {q : Packet} {r : Raised} :
    ∀ {cs : Packets} {d npkt : Nat}, validateAll cfg cs d npkt = .error r → r ∈ mayRaise (.encode q)
  | .nil, _, _, h => by cases h
  | .cons c cs, d, npkt, h => by
    unfold validateAll at h
    split at h
    · rename_i e; cases h; exact validate_raises e
    · exact validateAll_raises h

end

mutual

theorem enc_raises {policy : EncPolicy} {r : Raised} :
    ∀ {p : Packet}, enc policy p = .error r → r = (.encodeOverflow, .none)
  | .lit _ _, h => by cases h
  | .op _ _ _ cs, h => by
    unfold enc at h
    split at h
    · rename_i e; cases h; exact encAll_raises e
    · unfold encOperator at h
      split at h <;> split at h <;> cases h <;> rfl

theorem encAll_raises {policy : EncPolicy} {r : Raised} :
    ∀ {cs : Packets}, encAll policy cs = .error r → r = (.encodeOverflow, .none)
  | .nil, h => by cases h
  | .cons c cs, h => by
    unfold encAll at h
    split at h
    · rename_i e; cases h; exact enc_raises e
    · split at h
      · rename_i e; cases h; exact encAll_raises e
      · cases h

end

theorem encoded_raises {cfg : Config} {p : Packet} {r : Raised} (h : encoded cfg p = .error r) :
    r ∈ mayRaise (.encode p) := by
  unfold encoded at h
  split at h
  · rename_i e; cases h; exact validate_raises e
  · split at h
    · rename_i e; cases h; rw [enc_raises e]; simp [mayRaise]
    · split at h <;> cases h; simp [mayRaise]

/-! ### What each command leaves in ERR and ERRSUB -/

/-- ERR with ERRSUB is OK or an entry of c's column of R202. -/
def State.ReportsOf (c : Command) (s : State) : Prop :=
  (s.err, s.errSub) ∈ (Err.ok, ErrSub.none) :: mayRaise c

theorem reportsOf_succeed (c : Command) (s : State) : s.succeed.ReportsOf c :=
  .head _

theorem reportsOf_takeError {c : Command} {row : ErrorRow} {e : Err} {sub : ErrSub} (s : State)
    (h : (e, sub) ∈ mayRaise c) : (s.takeError row e sub).ReportsOf c :=
  .tail _ h

theorem State.ReportsOf.mono {c c' : Command} {s : State} (h : s.ReportsOf c) (sub : mayRaise c ⊆ mayRaise c') :
    s.ReportsOf c' :=
  List.cons_subset_cons _ sub h

theorem loadHex_reports (text : List Char) (s : State) : (loadHex text s).ReportsOf (.loadHex text) := by
  unfold loadHex
  split
  · exact reportsOf_takeError _ (scanHex_raises ‹_›)
  · exact reportsOf_succeed ..

theorem popCommand_reports (n : Nat) (s : State) : (popCommand n s).ReportsOf (.pop n) := by
  unfold popCommand
  split
  · exact reportsOf_takeError _ (by simp [mayRaise])
  · split
    · exact reportsOf_takeError _ (by simp [mayRaise])
    · exact reportsOf_succeed ..

theorem encodeCommand_reports (p : Packet) (s : State) : (encodeCommand p s).ReportsOf (.encode p) := by
  unfold encodeCommand
  split
  · exact reportsOf_takeError _ (encoded_raises ‹_›)
  · exact reportsOf_succeed ..

theorem decodeAtOnce_reports {s t : State} (h : s.decodeAtOnce = some t) : t.ReportsOf .decode := by
  have raises : s.decOuter.RaisesDecodeErrors := dec_raises ..
  unfold State.decodeAtOnce at h
  cases call : s.decOuter with
  | done p pos npkt => rw [call] at h; cases h; exact reportsOf_succeed ..
  | raised e sub pos => rw [call] at h raises; cases h; exact reportsOf_takeError _ raises
  | exhausted => rw [call] at h; cases h

/-- POP leaves the command in progress as it is (R37). -/
theorem popCommand_running (n : Nat) (s : State) : (popCommand n s).running = s.running := by
  unfold popCommand
  split
  · rfl
  · split
    · rfl
    · rename_i e; obtain ⟨-, -, rfl⟩ := popBits_eq_some.mp e; rfl

/-- ENCODE leaves the command in progress as it is (R37). -/
theorem encodeCommand_running (p : Packet) (s : State) : (encodeCommand p s).running = s.running := by
  unfold encodeCommand
  split <;> rfl

/-- DECODEOUTER's column of R202 holds LOADHEX's and DECODE's: its two phases. -/
theorem mayRaise_subset_decodeOuter (text : List Char) :
    mayRaise (.loadHex text) ⊆ mayRaise (.decodeOuter text) ∧ mayRaise .decode ⊆ mayRaise (.decodeOuter text) := by
  simp [mayRaise]

/-- Every command, run to its end, reports OK or an error of its column. -/
theorem commandAtOnce_reports {c : Command} {s t : State} (idle : s.running = .idle)
    (atOnce : commandAtOnce c s = some t) : t.ReportsOf c := by
  have done (same : (command c s).running = s.running) (reports : (command c s).ReportsOf c) : t.ReportsOf c := by
    rw [commandAtOnce_of_idle (same.trans idle)] at atOnce
    cases atOnce; exact reports
  cases c with
  | loadHex text => exact done (loadHex_running ..) (loadHex_reports ..)
  | pop n => exact done (popCommand_running ..) (popCommand_reports ..)
  | remaining => exact done rfl (reportsOf_succeed ..)
  | decode => exact decodeAtOnce_reports atOnce
  | decodeOuter text =>
    obtain ⟨ofLoad, ofDecode⟩ := mayRaise_subset_decodeOuter text
    by_cases loaded : (loadHex text s).err = .ok
    · rw [commandAtOnce_of_begins (by decide) (decodeOuter_of_load loaded)] at atOnce
      exact (decodeAtOnce_reports atOnce).mono ofDecode
    · have failed := decodeOuter_of_failed_load loaded
      exact done (failed ▸ loadHex_running ..) (failed ▸ (loadHex_reports text s).mono ofLoad)
  | encode p => exact done (encodeCommand_running ..) (encodeCommand_reports ..)

end Sys2Proof.Machine

open Sys2Proof Sys2Proof.Machine

/-- Settles O52: a DECODEOUTER reports its load phase's error or its decode's. -/
theorem commandsRaiseOnlyTheirErrors : Obligations.CommandsRaiseOnlyTheirErrors :=
  fun _ _ _ => commandAtOnce_reports

/-- Settles O6: an idle core serves the host, and a decode's step, like every instruction, enters a packet. -/
theorem everyStepAnswersANextState : Obligations.EveryStepAnswersANextState := by
  constructor
  · intro s
    rcases step_cases s with ⟨-, served⟩ | ⟨running, -⟩
    · exact ⟨_, served⟩
    · obtain ⟨body, entered⟩ := step_enters running
      exact ⟨_, entered⟩
  · intro i s
    obtain ⟨body, entered⟩ := exec_enters i s
    exact ⟨_, entered⟩

/-- Settles O28. -/
theorem idleCoreHoldsItsRegisters : Obligations.IdleCoreHoldsItsRegisters := by
  intro s idle pending
  simp [step, idle, serve, pending]
end

section
/-! PROOF. The fixtures' words (O4) are the encodings of the instructions they stand for, so the decoder reads those
instructions back and leaves nothing. -/

namespace Sys2Proof

/-- A word that is the encoding of a well-formed instruction decodes to it, with no bit left over. -/
theorem decode_of_encode_eq {i : Instr} {b : Bits} (wellFormed : i.wellFormed = true) (encodes : encode i = b) :
    decode b = .ok (i, []) := by
  have readsBack := decode_encode wellFormed []
  rwa [List.append_nil, encodes] at readsBack

end Sys2Proof

open Sys2Proof

/-- Settles O4: each word is the encoding of its instruction, by evaluation of the encoder. -/
theorem fixtureWordsDecode : Obligations.FixtureWordsDecode :=
  ⟨decode_of_encode_eq (by decide) (by decide), decode_of_encode_eq (by decide) (by decide),
    decode_of_encode_eq (by decide) (by decide), decode_of_encode_eq (by decide) (by decide)⟩
end
